-- ==== Sys2Proof/Word.lean ====
section
/-! DEFINITION. The word types of the block (spec/00_scope.md R5; spec/10_state.md R15, R16). -/

namespace Sys2Proof

/-- One byte, 8 bits (R5, BYTE_WIDTH). -/
abbrev Byte := BitVec 8

/-- The encoded integer: 64 bits, read as unsigned (R5, VALUE_WIDTH). -/
abbrev U64 := BitVec 64

/-- The nine byte lanes of `enc_data` and `dec_data` as one 72-bit value (R5, WINDOW). -/
abbrev Window := BitVec 72

/-- The width of `enc_len`, `dec_avail` and `dec_consumed` (R5). -/
abbrev Count := BitVec 4

/-- The width of `enc_status` and `dec_status` (R5). -/
abbrev StatusCode := BitVec 2

end Sys2Proof
end

