-- ==== Sys2Proof/Config.lean ====
section
/-! DEFINITION. The fixed parameters of the block that are no type (spec/00_scope.md R5). None can be configured at run
time. The one open parameter, N_INST, is an argument of `Fleet` (Machine/Fleet.lean, notes/assumptions/9.md). The block
has no free value: spec/93_implementation_defined.md says nothing in it is implementation-defined. -/

namespace Sys2Proof.Config

/-- WINDOW: the number of byte lanes of `enc_data` and `dec_data` (R5), also the longest encoding (R31). -/
def laneCount : Nat := 9

/-- Where the host's count of available bytes saturates: `dec_avail = min(len(s), 15)` (R16, R23). -/
def availMax : Nat := 15

end Sys2Proof.Config
end

