-- ==== Sys2Proof/Syntax.lean ====
section
/-! DEFINITION. The instructions: one constructor per row of spec/opcode_table.json. -/

namespace Sys2Proof

/-- The seven rows of the opcode table. The group "op" rows are the three operations, with the operand of their unit's
request word; the group "wire" rows are the four formats of an encoding, with their payload (spec/30_encoding.md R34,
R41). What a wire row DOES as an instruction is a convention of this model: notes/assumptions/5.md. -/
inductive Instr where
  /-- F1: one byte, which is the value itself; the format of a first byte 0x00 to 0xFC (R34). -/
  | f1 (b : Byte)
  /-- F3: 0xFD and a 2-byte payload; `payload` is the payload read least significant byte first (R34, R36). -/
  | f3 (payload : BitVec 16)
  /-- F5: 0xFE and a 4-byte payload (R34). -/
  | f5 (payload : BitVec 32)
  /-- F9: 0xFF and an 8-byte payload (R34). -/
  | f9 (payload : BitVec 64)
  /-- ENC: the encoder unit with `enc_value = v`; the host reads `enc_data` and `enc_len` (R42, R50). -/
  | enc (v : U64)
  /-- DEC: the decoder unit with the request word {dec_avail, dec_data} (R41, R60, R65). -/
  | dec (data : Window) (avail : Count)
  /-- SIZE: the encoder unit with `enc_value = v`; the host reads `enc_len` (R42, R70). -/
  | size (v : U64)
deriving DecidableEq, Repr

end Sys2Proof
end

