-- ==== Sys2Proof/Machine/Types.lean ====
section
/-! DEFINITION. The names the spec gives to classes, error kinds, results, port bundles and requests. -/

namespace Sys2Proof.Machine

/-- A length class, named by its encoded length (spec/00_scope.md section 5.4; spec/30_encoding.md R30). -/
inductive LenClass where
  | c1 | c3 | c5 | c9
deriving DecidableEq, Repr

/-- The two error kinds (spec/60_exceptions.md R85). -/
inductive ErrKind where
  /-- Raised by DEC only, on an input shorter than its first byte announces (R61, R86). -/
  | truncatedInput
  /-- Defined and never raised (R87). -/
  | invalidRange
deriving DecidableEq, Repr

/-- The four names of the 2-bit status codes (R85). -/
inductive Status where
  | ok
  | error (k : ErrKind)
  /-- Code 3: "reserved, never produced by any operation on any input" (R85). -/
  | reserved
deriving DecidableEq, Repr

/-- The transaction-level result of DEC (spec/00_scope.md section 5.4): one of the two, never both. -/
inductive DecResult where
  | ok (value : U64) (consumed : Nat)
  | err (kind : ErrKind)
deriving DecidableEq, Repr

/-- What the host reads as the response of one operation (spec/30_encoding.md R42). -/
inductive Response where
  /-- ENC: the byte sequence. -/
  | encoded (bytes : List Byte)
  /-- SIZE: the length. -/
  | length (n : Nat)
  /-- DEC on success: the value and the number of bytes consumed. -/
  | decoded (value : U64) (consumed : Nat)
  /-- An error kind on the unit's status port (R88: a result value, not a trap). -/
  | failed (kind : ErrKind)
  /-- The reserved status code 3 on the unit's status port; no operation gives it (R85; notes/assumptions/11.md). -/
  | reservedStatus
deriving DecidableEq, Repr

/-- The result of DEC as a response. -/
def DecResult.toResponse : DecResult → Response
  | .ok v n => .decoded v n
  | .err k => .failed k

/-- The machine state of one instance: "A model's machine state for one instance is therefore the unit type"
(spec/10_state.md R10). No register, flag, counter, buffer or mode is in it (R11 to R14). -/
abbrev Block := Unit

/-- The signals on the encoder unit's ports in a transaction that uses it (spec/10_state.md R15). -/
structure EncPorts where
  encValue  : U64
  encData   : Window
  encLen    : Count
  encStatus : StatusCode
deriving DecidableEq, Repr

/-- The signals on the decoder unit's ports in a transaction that uses it (spec/10_state.md R16). -/
structure DecPorts where
  decData     : Window
  decAvail    : Count
  decValue    : U64
  decConsumed : Count
  decStatus   : StatusCode
deriving DecidableEq, Repr

/-- One use of the encoder unit: the operand, and which result the host reads (R15, R42). -/
inductive EncUse where
  | encode (v : U64)
  | size (v : U64)
deriving DecidableEq, Repr

/-- One use of the decoder unit. -/
inductive DecUse where
  /-- The host drives `dec_data` and `dec_avail` as it likes (R16, R104). -/
  | ports (data : Window) (avail : Count)
  /-- The host presents a byte string as it stands on the wire (R34; notes/assumptions/5.md). -/
  | wire (s : List Byte)
deriving DecidableEq, Repr

/-- One transaction: the host uses the encoder unit, the decoder unit, or both (spec/10_state.md section 2: "both units
may be used in the same transaction"). -/
inductive Transaction where
  | encoder (e : EncUse)
  | decoder (d : DecUse)
  | both (e : EncUse) (d : DecUse)
deriving DecidableEq, Repr

end Sys2Proof.Machine
end

