-- ==== Sys2Proof/Machine/Operands.lean ====
section
/-! DEFINITION. The format primitives (spec/30_encoding.md R30 to R36) and the binding of byte sequences to lanes
(spec/20_memory.md R22, R23). -/

namespace Sys2Proof.Machine

/-! ## Classes, lengths, discriminators -/

/-- The length class of a value: four closed intervals, unsigned (R30, R84). -/
def classOf (v : U64) : LenClass :=
  if v.toNat ≤ 252 then .c1
  else if v.toNat ≤ 65535 then .c3
  else if v.toNat ≤ 4294967295 then .c5
  else .c9

/-- The encoded length of a class in bytes (R31). -/
def lenOf : LenClass → Nat
  | .c1 => 1
  | .c3 => 3
  | .c5 => 5
  | .c9 => 9

/-- The discriminator byte of a class; class C1 has no separate one (R32). -/
def disc : LenClass → Option Byte
  | .c1 => none
  | .c3 => some 0xFD
  | .c5 => some 0xFE
  | .c9 => some 0xFF

/-- The length class a first byte announces; total on all 256 bytes (R33). -/
def classOfDisc (b : Byte) : LenClass :=
  if b.toNat < 0xFD then .c1
  else if b = 0xFD then .c3
  else if b = 0xFE then .c5
  else .c9

/-! ## Little-endian payloads -/

/-- `v[8j+7 : 8j]`, byte `j` of a value (R35). -/
def byteOf (v : U64) (j : Nat) : Byte := v.extractLsb' (8 * j) 8

/-- `LE(v, k)`: the k-byte little-endian form (R35). -/
def le (v : U64) (k : Nat) : List Byte := (List.range k).map (byteOf v)

/-- `FromLE(p)`: the sum over j of `p[j] · 2^(8j)` (R36), by its first byte and the rest. -/
def fromLE : List Byte → Nat
  | [] => 0
  | b :: p => b.toNat + 256 * fromLE p

/-- `s[a..b)`: the elements at indexes `a` to `b − 1` (spec/00_scope.md section 5.2). -/
def slice (s : List Byte) (a b : Nat) : List Byte := (s.take b).drop a

/-! ## Lanes and windows -/

/-- Lane `i` of a window: bits `[8i+7 : 8i]` (R22). -/
def lane (d : Window) (i : Nat) : Byte := d.extractLsb' (8 * i) 8

/-- The first `n` lanes of a window as a byte sequence: sequence index `i` is lane `i` (R22). -/
def lanes (d : Window) (n : Nat) : List Byte := (List.range n).map (lane d)

/-- The window whose lanes carry the given bytes, lane 0 first (R22). -/
def ofLanes (bytes : List Byte) : Window := BitVec.ofNat 72 (fromLE bytes)

/-- `dec_data` for a byte sequence: lane `i` is `s[i]` for `i < min(len(s), 9)`; the host "may drive the remaining
lanes with anything", here the lanes of `filler` (R23). -/
def bindLanes (s : List Byte) (filler : Window) : Window :=
  ofLanes ((List.range Config.laneCount).map fun i => (s[i]?).getD (lane filler i))

/-- `dec_avail` for a byte sequence: its length, saturated at 15 (R23). -/
def bindAvail (s : List Byte) : Count := BitVec.ofNat 4 (min s.length Config.availMax)

/-- The byte sequence that a decoder request stands for: its available lanes, at most nine (R16, R23). -/
def boundSeq (data : Window) (avail : Count) : List Byte := lanes data (min avail.toNat Config.laneCount)

end Sys2Proof.Machine
end

