-- ==== Sys2Proof/WellFormed.lean ====
section
/-! DEFINITION. Which terms of Instr are instructions of the block. -/

namespace Sys2Proof

/-- The one check: an F1 byte is not 0xFD, 0xFE or 0xFF (spec/30_encoding.md R34, "vvvvvvvv ≠ 11111101, 11111110,
11111111"; the range 0x00 to 0xFC of opcode_table.json). Every other operand takes every value of its width (R40). -/
def Instr.wellFormed (i : Instr) : Bool :=
  match i with
  | .f1 b => decide (b.toNat < 0xFD)
  | .f3 _ => true
  | .f5 _ => true
  | .f9 _ => true
  | .enc _ => true
  | .dec _ _ => true
  | .size _ => true

end Sys2Proof
end

