-- ==== Sys2Proof/Decode.lean ====
section
/-! DEFINITION. From what the host presents to an instruction, and back. Wire strings are decoded by their first byte
(spec/30_encoding.md R33, R37, R41); the three operations have no select bits and are told by the unit used (R41). -/

namespace Sys2Proof

open Machine

/-! ## Decoding -/

/-- Why a byte string is not exactly one encoding. None of these stops the machine: DEC has a response for every
string (spec/60_exceptions.md R89). -/
inductive Reject where
  /-- There is no first byte. -/
  | emptyInput
  /-- There are fewer bytes than the first byte announces (spec/41_decode.md R61). -/
  | truncatedInput
  /-- There are more bytes than the first byte announces (spec/41_decode.md R63). -/
  | trailingBytes
deriving DecidableEq, Repr

/-- The instruction of one format with its payload bytes (R34, R36). -/
def ofFormat (b : Byte) (payload : List Byte) : Instr :=
  match classOfDisc b with
  | .c1 => .f1 b
  | .c3 => .f3 (BitVec.ofNat 16 (fromLE payload))
  | .c5 => .f5 (BitVec.ofNat 32 (fromLE payload))
  | .c9 => .f9 (BitVec.ofNat 64 (fromLE payload))

/-- A byte string as exactly one encoding: total on any bytes, rejecting by name (R33, R34, R37, R41). -/
def decodeWire (s : List Byte) : Except Reject Instr :=
  match s with
  | [] => .error .emptyInput
  | b :: payload =>
    if s.length < lenOf (classOfDisc b) then .error .truncatedInput
    else if lenOf (classOfDisc b) < s.length then .error .trailingBytes
    else .ok (ofFormat b payload)

/-- The instruction of a use of the encoder unit (R41, R42). -/
def decodeEncUse : EncUse → Instr
  | .encode v => .enc v
  | .size v => .size v

/-- The instruction of a use of the decoder unit. A string that is exactly one encoding is the instruction of its
format; any other string is DEC of the string bound to the ports, unused lanes zero (spec/20_memory.md R23;
notes/assumptions/5.md). -/
def decodeDecUse : DecUse → Instr
  | .ports data avail => .dec data avail
  | .wire s =>
    match decodeWire s with
    | .ok i => i
    | .error _ => .dec (bindLanes s 0) (bindAvail s)

/-- The instructions of a transaction, the encoder unit's first (notes/assumptions/10.md). -/
def decode : Transaction → List Instr
  | .encoder e => [decodeEncUse e]
  | .decoder d => [decodeDecUse d]
  | .both e d => [decodeEncUse e, decodeDecUse d]

/-! ## Encoding -/

/-- The bytes of format F1 (R34). -/
def f1Bytes (b : Byte) : List Byte := [b]

/-- The bytes of format F3 (R34): 0xFD, `v[7:0]`, `v[15:8]`. -/
def f3Bytes (p : BitVec 16) : List Byte := [0xFD, p.extractLsb' 0 8, p.extractLsb' 8 8]

/-- The bytes of format F5 (R34). -/
def f5Bytes (p : BitVec 32) : List Byte :=
  [0xFE, p.extractLsb' 0 8, p.extractLsb' 8 8, p.extractLsb' 16 8, p.extractLsb' 24 8]

/-- The bytes of format F9 (R34). -/
def f9Bytes (p : BitVec 64) : List Byte :=
  [0xFF, p.extractLsb' 0 8, p.extractLsb' 8 8, p.extractLsb' 16 8, p.extractLsb' 24 8,
    p.extractLsb' 32 8, p.extractLsb' 40 8, p.extractLsb' 48 8, p.extractLsb' 56 8]

/-- What the host presents for an instruction. -/
def encode : Instr → Transaction
  | .f1 b => .decoder (.wire (f1Bytes b))
  | .f3 p => .decoder (.wire (f3Bytes p))
  | .f5 p => .decoder (.wire (f5Bytes p))
  | .f9 p => .decoder (.wire (f9Bytes p))
  | .enc v => .encoder (.encode v)
  | .dec data avail => .decoder (.ports data avail)
  | .size v => .encoder (.size v)

/-! ## The words of opcode_table.json -/

/-- The wire string in a word of at most nine bytes: as many lanes as lane 0 announces (R37). -/
def wireString (d : Window) : List Byte := lanes d (lenOf (classOfDisc (lane d 0)))

/-- What the host presents for a word numbered as opcode_table.json numbers it. The request words have no select bits,
so the row's length tells the unit: 8 bytes is the encoder's `enc_value` (ENC; SIZE has the very same word,
notes/assumptions/6.md), 76 bits in 10 bytes is the decoder's {dec_avail, dec_data}; anything else is a wire string
(notes/assumptions/7.md). -/
def tableTransaction (nbits w : Nat) : Transaction :=
  if nbits = 64 then .encoder (.encode (BitVec.ofNat 64 w))
  else if nbits = 76 ∨ nbits = 80 then
    .decoder (.ports (BitVec.ofNat 72 w) (BitVec.ofNat 4 (w / 2 ^ 72)))
  else .decoder (.wire (wireString (BitVec.ofNat 72 (w % 2 ^ nbits))))

/-- The instruction this model's decoder reads from a word of opcode_table.json. -/
def decodeTableWord (nbits w : Nat) : Option Instr :=
  match decode (tableTransaction nbits w) with
  | [i] => some i
  | _ => none

/-- The length in bits and the word of an instruction, as opcode_table.json numbers them (bit 0 is the least significant
bit of the first byte). -/
def encodeTableWord : Instr → Nat × Nat
  | .f1 b => (8, b.toNat)
  | .f3 p => (24, (p ++ 0xFD#8).toNat)
  | .f5 p => (40, (p ++ 0xFE#8).toNat)
  | .f9 p => (72, (p ++ 0xFF#8).toNat)
  | .enc v => (64, v.toNat)
  | .dec data avail => (80, (avail ++ data).toNat)
  | .size v => (64, v.toNat)

end Sys2Proof
end

