-- ==== Sys2Proof/Machine/Codec.lean ====
section
/-! DEFINITION. The three operations at the transaction level (spec/00_scope.md section 1): total functions over values
and byte sequences. -/

namespace Sys2Proof.Machine

/-- `ENC(v)` (spec/40_encode.md R50). -/
def encodeValue (v : U64) : List Byte :=
  match disc (classOf v) with
  | none => [byteOf v 0]
  | some d => d :: le v (lenOf (classOf v) - 1)

/-- `SIZE(v) = LenOf(ClassOf(v))` (spec/42_size_of.md R70). -/
def encodedLength (v : U64) : Nat := lenOf (classOf v)

/-- `DEC(s)` (spec/41_decode.md R60, R61). -/
def decodeSeq (s : List Byte) : DecResult :=
  match s with
  | [] => .err .truncatedInput
  | b :: _ =>
    if s.length < lenOf (classOfDisc b) then .err .truncatedInput
    else
      match classOfDisc b with
      | .c1 => .ok (b.setWidth 64) 1
      | .c3 => .ok (BitVec.ofNat 64 (fromLE (slice s 1 3))) 3
      | .c5 => .ok (BitVec.ofNat 64 (fromLE (slice s 1 5))) 5
      | .c9 => .ok (BitVec.ofNat 64 (fromLE (slice s 1 9))) 9

/-- Whether a byte sequence is the canonical encoding of the value it decodes to (spec/30_encoding.md R38). -/
def isCanonical (s : List Byte) : Bool :=
  match decodeSeq s with
  | .ok v _ => decide (encodeValue v = s)
  | .err _ => false

/-- Whether a byte sequence is a non-canonical encoding: format F3, F5 or F9 with a payload value below the lower bound
of the format's class (spec/30_encoding.md R39). -/
def isNonCanonical (s : List Byte) : Bool :=
  match s with
  | [] => false
  | b :: p =>
    decide (s.length = lenOf (classOfDisc b)) &&
      match classOfDisc b with
      | .c1 => false
      | .c3 => decide (fromLE p ≤ 252)
      | .c5 => decide (fromLE p ≤ 65535)
      | .c9 => decide (fromLE p ≤ 4294967295)

end Sys2Proof.Machine
end

