-- ==== Sys2Proof/Machine/State.lean ====
section
/-! DEFINITION. The state that the host's interface steps: the block, whose own state is the unit type (spec/10_state.md
R10), and the signals between it and the host in the present transaction. No list of operations and no history stands
here (R10, R18): the next request is put here from outside (Machine/Run.lean), and a step starts from nothing else. -/

namespace Sys2Proof.Machine

/-- Why the machine stops with a fault. There is no constructor: "A model therefore has no fault outcome, no stuck
outcome and no refusal for this block; its step is a total function" (spec/60_exceptions.md R89). Nothing raises one. -/
inductive Fault where
deriving DecidableEq, Repr

/-- Why an instruction is refused. -/
inductive Refusal where
  /-- An instruction that has no meaning in this model yet, by its mnemonic. Raised by the dispatch only; no arm of it
  does now. Safe: the machine stops. -/
  | notModelled (mnemonic : String)
deriving DecidableEq, Repr

/-- One instance as the host sees it at one moment (notes/assumptions/1.md). A unit's ports are `none` when the host does
not drive them: a port "holds nothing when the host stops driving it" (R11). -/
structure State where
  /-- The machine state of the instance: nothing (R10). -/
  block : Block
  /-- The request that the host presents for the next transaction, if it presents one (R12, R18). -/
  request : Option Transaction
  /-- The encoder unit's ports, if the present transaction uses it (R11, R15; notes/assumptions/3.md). -/
  enc : Option EncPorts
  /-- The decoder unit's ports, if the present transaction uses it (R11, R16; notes/assumptions/3.md). -/
  dec : Option DecPorts
  /-- What the host reads in the present transaction: (operation, response) pairs, at most one for each unit in a step
  (spec/70_reset_and_hazards.md R107). -/
  observed : List (Instr × Response)
deriving DecidableEq, Repr

/-- An instance at which the host presents nothing, drives nothing and reads nothing. -/
def State.idle (b : Block) : State := { block := b, request := none, enc := none, dec := none, observed := [] }

/-- Right after reset: no state to reset (R19, R100); no input is driven yet, so there is no output, since the block
"produces outputs only as the response to an operation" (spec/60_exceptions.md R92; notes/assumptions/2.md). -/
def State.reset : State := State.idle ()

end Sys2Proof.Machine
end

