-- ==== Sys2Proof/Machine/Flags.lean ====
section
/-! DEFINITION. The status codes (spec/60_exceptions.md R85). The block has no flag (spec/10_state.md R13): a status
belongs to one operation and is a result of it. -/

namespace Sys2Proof.Machine

/-- The code of a status on the 2-bit ports: 0 OK, 1 TruncatedInput, 2 InvalidRange, 3 reserved (R85). -/
def Status.code : Status → StatusCode
  | .ok => 0
  | .error .truncatedInput => 1
  | .error .invalidRange => 2
  | .reserved => 3

/-- The status a code names (R85). -/
def Status.ofCode (c : StatusCode) : Status :=
  if c = 0 then .ok
  else if c = 1 then .error .truncatedInput
  else if c = 2 then .error .invalidRange
  else .reserved

/-- `enc_status`, "the constant 0" (spec/40_encode.md R51, R52). -/
def encoderStatus : StatusCode := Status.code .ok

/-- `dec_status` for `avail` available bytes where `needed` are announced: OK when there is a first byte and as many
bytes as it announces, TruncatedInput otherwise (spec/41_decode.md R65, R66). -/
def decoderStatus (avail needed : Nat) : StatusCode :=
  if 1 ≤ avail ∧ needed ≤ avail then Status.code .ok else Status.code (.error .truncatedInput)

end Sys2Proof.Machine
end

