-- ==== Sys2Proof/Machine/Units.lean ====
section
/-! DEFINITION. The two units at the port level: every output is a function of the unit's own inputs (spec/10_state.md
R17). -/

namespace Sys2Proof.Machine

/-- `enc_data` as one 72-bit value, unused lanes zero (spec/40_encode.md R52). -/
def encoderData (v : U64) : Window :=
  match classOf v with
  | .c1 => (v.extractLsb' 0 8).setWidth 72
  | .c3 => (v.extractLsb' 0 16 ++ 0xFD#8).setWidth 72
  | .c5 => (v.extractLsb' 0 32 ++ 0xFE#8).setWidth 72
  | .c9 => v ++ 0xFF#8

/-- The encoder unit: its ports when the host drives `enc_value = v` (spec/40_encode.md R52). `encLen` is the one
length output, read by ENC and by SIZE (spec/42_size_of.md R71). -/
def encoderUnit (v : U64) : EncPorts :=
  { encValue  := v
    encData   := encoderData v
    encLen    := BitVec.ofNat 4 (lenOf (classOf v))
    encStatus := encoderStatus }

/-- The number of bytes that lane 0 announces (spec/41_decode.md R65). -/
def announced (data : Window) : Nat := lenOf (classOfDisc (lane data 0))

/-- `dec_value` on success: the value byte or the payload slice, zero-extended (spec/41_decode.md R65). -/
def decoderValue (data : Window) : U64 :=
  match classOfDisc (lane data 0) with
  | .c1 => (data.extractLsb' 0 8).setWidth 64
  | .c3 => (data.extractLsb' 8 16).setWidth 64
  | .c5 => (data.extractLsb' 8 32).setWidth 64
  | .c9 => data.extractLsb' 8 64

/-- The decoder unit: its ports when the host drives `dec_data` and `dec_avail` (spec/41_decode.md R65, R66). On
TruncatedInput the value and the count are 0 (R66). -/
def decoderUnit (data : Window) (avail : Count) : DecPorts :=
  let status := decoderStatus avail.toNat (announced data)
  if status = Status.code .ok then
    { decData := data, decAvail := avail, decValue := decoderValue data
      decConsumed := BitVec.ofNat 4 (announced data), decStatus := status }
  else
    { decData := data, decAvail := avail, decValue := 0, decConsumed := 0, decStatus := status }

end Sys2Proof.Machine
end

