-- ==== Sys2Proof/Machine/Ops.lean ====
section
/-! DEFINITION. The shared operations: driving a unit's ports, reading a response from them, recording it. There is no
taking of an exception and no return from one: an error is a result value (spec/60_exceptions.md R88, R90). -/

namespace Sys2Proof.Machine

/-! ## Reading a response from a unit's ports (spec/30_encoding.md R42) -/

/-- What the host reads on a status: `success` on OK, the error kind otherwise (R85, R88). -/
def respondOn (status : StatusCode) (success : Response) : Response :=
  match Status.ofCode status with
  | .ok => success
  | .error k => .failed k
  | .reserved => .reservedStatus

/-- The response of ENC: "the first `enc_len` lanes of `enc_data`" (R42). -/
def readEncoded (p : EncPorts) : Response := respondOn p.encStatus (.encoded (lanes p.encData p.encLen.toNat))

/-- The response of SIZE: `enc_len` (R42). -/
def readLength (p : EncPorts) : Response := respondOn p.encStatus (.length p.encLen.toNat)

/-- The response of DEC: (value, consumed) or the error kind (R42). -/
def readDecoded (p : DecPorts) : Response := respondOn p.decStatus (.decoded p.decValue p.decConsumed.toNat)

/-! ## Transactions on State -/

/-- A transaction is over: the host stops driving, so no port holds anything (spec/10_state.md R11), and the request and
what was read are gone with it. What is left is the block, which retains nothing (R10). -/
def release (s : State) : State := State.idle s.block

/-- The host drives `enc_value`; the encoder unit's outputs follow (spec/10_state.md R17). The decoder unit shares no
signal with it and is as it is in this transaction (R15 to R17; notes/assumptions/3.md). -/
def driveEncoder (v : U64) (s : State) : State := { s with enc := some (encoderUnit v) }

/-- The host drives `dec_data` and `dec_avail`; the decoder unit's outputs follow (spec/10_state.md R17). -/
def driveDecoder (data : Window) (avail : Count) (s : State) : State := { s with dec := some (decoderUnit data avail) }

/-- The pair (operation, response) joins what the host reads in this transaction
(spec/70_reset_and_hazards.md R107). -/
def record (i : Instr) (r : Response) (s : State) : State :=
  { s with observed := s.observed ++ [(i, r)] }

/-- A use of the encoder unit by instruction `i`, its response read by `read` from the unit's ports. -/
def useEncoder (i : Instr) (v : U64) (read : EncPorts → Response) (s : State) : State :=
  record i (read (encoderUnit v)) (driveEncoder v s)

/-- A use of the decoder unit by instruction `i`. -/
def useDecoder (i : Instr) (data : Window) (avail : Count) (s : State) : State :=
  record i (readDecoded (decoderUnit data avail)) (driveDecoder data avail s)

/-- A use of the decoder unit by a wire-format instruction: its bytes bound to the ports, unused lanes zero
(spec/20_memory.md R23; notes/assumptions/5.md). -/
def useDecoderOn (i : Instr) (bytes : List Byte) (s : State) : State :=
  useDecoder i (bindLanes bytes 0) (bindAvail bytes) s

/-- The response of the operation observed last, if any. -/
def lastResponse (s : State) : Option Response := s.observed.getLast?.map Prod.snd

/-! ## The response of an instruction at the transaction level -/

/-- The response the transaction level gives an instruction (spec/40_encode.md R50; spec/41_decode.md R60;
spec/42_size_of.md R70): a function of the instruction alone. -/
def responseOf : Instr → Response
  | .f1 b => (decodeSeq (f1Bytes b)).toResponse
  | .f3 p => (decodeSeq (f3Bytes p)).toResponse
  | .f5 p => (decodeSeq (f5Bytes p)).toResponse
  | .f9 p => (decodeSeq (f9Bytes p)).toResponse
  | .enc v => .encoded (encodeValue v)
  | .dec data avail => (decodeSeq (boundSeq data avail)).toResponse
  | .size v => .length (encodedLength v)

end Sys2Proof.Machine
end

