-- ==== Sys2Proof/Machine/Decoder.lean ====
section
/-! DEFINITION. The meaning of DEC, the operation of the decoder unit. -/

namespace Sys2Proof.Machine

/-- DEC (spec/41_decode.md R60 to R66): drive `dec_data` and `dec_avail`, read value and count or TruncatedInput. Every
pair of operands has a response (spec/60_exceptions.md R89). -/
def execDec (data : Window) (avail : Count) (s : State) : Host.Outcome State Fault Refusal :=
  .next (useDecoder (.dec data avail) data avail s)

end Sys2Proof.Machine
end

