-- ==== Sys2Proof/Machine/Encoder.lean ====
section
/-! DEFINITION. The meanings of ENC and SIZE, the operations of the encoder unit. -/

namespace Sys2Proof.Machine

/-- ENC (spec/40_encode.md R50 to R53): drive `enc_value = v`, read `enc_data` and `enc_len`. Total (R51). -/
def execEnc (v : U64) (s : State) : Host.Outcome State Fault Refusal := .next (useEncoder (.enc v) v readEncoded s)

/-- SIZE (spec/42_size_of.md R70 to R72): drive `enc_value = v`, read `enc_len`. Total (R72). -/
def execSize (v : U64) (s : State) : Host.Outcome State Fault Refusal := .next (useEncoder (.size v) v readLength s)

end Sys2Proof.Machine
end

