-- ==== Sys2Proof/Machine/Wire.lean ====
section
/-! DEFINITION. The meanings of the wire rows F1, F3, F5, F9: the decoder unit given exactly one encoding of that format
(spec/30_encoding.md R33, R34; spec/41_decode.md R60; notes/assumptions/5.md). -/

namespace Sys2Proof.Machine

/-- F1: the value is the byte itself, 1 byte consumed (R33, R60). An ill-formed byte answers as DEC of it does
(notes/assumptions/8.md). -/
def execF1 (b : Byte) (s : State) : Host.Outcome State Fault Refusal := .next (useDecoderOn (.f1 b) (f1Bytes b) s)

/-- F3: the value is the 2-byte payload zero-extended, 3 bytes consumed (R33, R36, R60). -/
def execF3 (p : BitVec 16) (s : State) : Host.Outcome State Fault Refusal := .next (useDecoderOn (.f3 p) (f3Bytes p) s)

/-- F5: the value is the 4-byte payload zero-extended, 5 bytes consumed (R33, R36, R60). -/
def execF5 (p : BitVec 32) (s : State) : Host.Outcome State Fault Refusal := .next (useDecoderOn (.f5 p) (f5Bytes p) s)

/-- F9: the value is the 8-byte payload, 9 bytes consumed (R33, R36, R60). -/
def execF9 (p : BitVec 64) (s : State) : Host.Outcome State Fault Refusal := .next (useDecoderOn (.f9 p) (f9Bytes p) s)

end Sys2Proof.Machine
end

