-- ==== Sys2Proof/Machine/Dispatch.lean ====
section
/-! DEFINITION. One arm per row of the opcode table. -/

namespace Sys2Proof.Machine

def exec (i : Instr) (s : State) : Host.Outcome State Fault Refusal :=
  match i with
  | .f1 b => Sys2Proof.Machine.execF1 b s
  | .f3 p => Sys2Proof.Machine.execF3 p s
  | .f5 p => Sys2Proof.Machine.execF5 p s
  | .f9 p => Sys2Proof.Machine.execF9 p s
  | .enc v => Sys2Proof.Machine.execEnc v s
  | .dec data avail => Sys2Proof.Machine.execDec data avail s
  | .size v => Sys2Proof.Machine.execSize v s

end Sys2Proof.Machine
end

