-- ==== Sys2Proof/Machine/Transact.lean ====
section
/-! DEFINITION. Running the instructions of one transaction. -/

namespace Sys2Proof.Machine

/-- The instructions of one transaction, one after the other, stopping at the first that does not answer next. -/
def execAll : List Instr → State → Host.Outcome State Fault Refusal
  | [], s => .next s
  | i :: is, s =>
    match exec i s with
    | .next t => execAll is t
    | .fault r => .fault r
    | .refused r => .refused r

end Sys2Proof.Machine
end

