-- ==== Sys2Proof/Machine/Step.lean ====
section
/-! DEFINITION. One step: the transaction that the host presents (spec/70_reset_and_hazards.md R106, R107). -/

namespace Sys2Proof.Machine

/-- One step: the transaction before is over, and the presented one runs (one instruction, or one for each unit, R15 to
R17). "The step relation relates a request to a response and nothing else" (spec/10_state.md R10): nothing of `s` but its
request is used. When the host presents nothing it drives nothing, and nothing else happens: "the block has no halt, exit
or final state" (R107; notes/assumptions/4.md). -/
def step (s : State) : Host.Outcome State Fault Refusal :=
  match s.request with
  | none => .next (release s)
  | some tx => execAll (decode tx) (release s)

/-- The host presents its next request (spec/10_state.md R12, R18). -/
def State.present (s : State) (tx : Transaction) : State := { s with request := some tx }

/-- The state in which the host presents the request of this opcode-table word (notes/assumptions/4.md). -/
def State.withFetchWord (s : State) (nbits w : Nat) : State := s.present (tableTransaction nbits w)

end Sys2Proof.Machine
end

