-- ==== Sys2Proof/Machine/Run.lean ====
section
/-! DEFINITION. A run: the host's list of requests, an argument and no field of a state (spec/10_state.md R18), and its
observation (spec/70_reset_and_hazards.md R107). -/

namespace Sys2Proof.Machine

/-- The host presents its requests one after the other. The observation is the list of the (operation, response) pairs
read, oldest first (R107); it is a result of the run and no field of a state. -/
def runFrom : List Transaction → State → Host.Outcome (State × List (Instr × Response)) Fault Refusal
  | [], s => .next (s, [])
  | tx :: txs, s =>
    match step (s.present tx) with
    | .next t =>
      match runFrom txs t with
      | .next (u, more) => .next (u, t.observed ++ more)
      | .fault r => .fault r
      | .refused r => .refused r
    | .fault r => .fault r
    | .refused r => .refused r

/-- "each an `ENC v`, a `SIZE v` or a `DEC s`" (R107); the operand of DEC is a byte sequence of any length (R60). -/
inductive Operation where
  | enc (v : U64)
  | size (v : U64)
  | dec (s : List Byte)
deriving DecidableEq, Repr

/-- The instruction by which a truthful host issues an operation; `filler` is what it drives on the lanes that carry no
byte of the sequence (spec/20_memory.md R23; spec/70_reset_and_hazards.md R104). -/
def Operation.instr (filler : Window) : Operation → Instr
  | .enc v => .enc v
  | .size v => .size v
  | .dec s => .dec (bindLanes s filler) (bindAvail s)

/-- The response of an operation: one of the three functions (spec/43_codec_laws.md R83). -/
def Operation.response : Operation → Response
  | .enc v => .encoded (encodeValue v)
  | .size v => .length (encodedLength v)
  | .dec s => (decodeSeq s).toResponse

/-- The request by which a truthful host issues an operation. -/
def Operation.transaction (filler : Window) (o : Operation) : Transaction := encode (o.instr filler)

end Sys2Proof.Machine
end

