-- ==== Sys2Proof/Machine/Block.lean ====
section
/-! DEFINITION. The block alone: its machine state is the unit type and its step relation relates a request to a response
and nothing else (spec/10_state.md R10). The ports of State are the signals by which it does so. -/

namespace Sys2Proof.Machine

/-- One transaction of the block: from the request to the (operation, response) pairs that the host reads (R10). -/
def Block.transact (b : Block) (tx : Transaction) : Host.Outcome (Block × List (Instr × Response)) Fault Refusal :=
  match step ((State.idle b).present tx) with
  | .next t => .next (t.block, t.observed)
  | .fault r => .fault r
  | .refused r => .refused r

end Sys2Proof.Machine
end

