-- ==== Sys2Proof/Machine/Caller.lean ====
section
/-! DEFINITION. The host side of a stream: the cursor rule (spec/70_reset_and_hazards.md R105) and the pseudo-operations
of spec/30_encoding.md R42. This is host state, kept outside State (spec/10_state.md R18). -/

namespace Sys2Proof.Machine

/-- The host's byte stream and its cursor, "a byte index into `buf`, host state" (R105). The width of the cursor is the
host's; that it is an unbounded number here, which never wraps, is a DESIGN CHOICE (notes/assumptions/16.md). -/
structure Caller where
  buf : List Byte
  cur : Nat
deriving DecidableEq, Repr

/-- `buf[cur..)`: the rest of the stream from the cursor (R42). -/
def Caller.rest (c : Caller) : List Byte := c.buf.drop c.cur

/-- `DEC buf[cur..)`, bound to the ports; `filler` is on the lanes past the end of the stream (R42; spec/20_memory.md
R23). -/
def Caller.request (c : Caller) (filler : Window) : Instr := .dec (bindLanes c.rest filler) (bindAvail c.rest)

/-- `cur <- cur + consumed` on success; no move on anything else (R105; notes/assumptions/13.md). -/
def Caller.advance (c : Caller) : Option Response → Caller
  | some (.decoded _ n) => { c with cur := c.cur + n }
  | _ => c

/-- The host reads the next CompactSize of its stream: one DEC in a transaction of its own, then the
cursor rule (R105). -/
def Caller.turn (filler : Window) (c : Caller) (s : State) : Host.Outcome (Caller × State) Fault Refusal :=
  match exec (c.request filler) (release s) with
  | .next t => .next (c.advance (lastResponse t), t)
  | .fault r => .fault r
  | .refused r => .refused r

/-- `k` reads in a row, with their responses. What the host does after TruncatedInput and at the end of `buf` is its own
policy (R105; spec/60_exceptions.md R90). DESIGN CHOICE: this caller does not stop there, as R42's `if Err then stop`
would; it reads again from the same cursor (notes/assumptions/15.md), and at the end of `buf` that is `DEC []`
(notes/assumptions/16.md). -/
def Caller.turns (filler : Window) :
    Nat → Caller → State → Host.Outcome (Caller × State × List (Option Response)) Fault Refusal
  | 0, c, s => .next (c, s, [])
  | k + 1, c, s =>
    match c.turn filler s with
    | .next (c', t) =>
      match Caller.turns filler k c' t with
      | .next (c'', u, rs) => .next (c'', u, lastResponse t :: rs)
      | .fault r => .fault r
      | .refused r => .refused r
    | .fault r => .fault r
    | .refused r => .refused r

end Sys2Proof.Machine
end

