-- ==== Sys2Proof/Machine/Fleet.lean ====
section
/-! DEFINITION. Several instances of the block (spec/60_exceptions.md R95): `n` of them, N_INST being an open parameter
(spec/00_scope.md R5; notes/assumptions/9.md). -/

namespace Sys2Proof.Machine

/-- `n` instances; they share nothing. -/
abbrev Fleet (n : Nat) := Vector State n

/-- One operation at instance `k`, in a transaction of its own, with the response read there. -/
def Fleet.use {n : Nat} (f : Fleet n) (k : Fin n) (i : Instr) :
    Host.Outcome (Fleet n × Option Response) Fault Refusal :=
  match exec i (release f[k]) with
  | .next t => .next (f.set k t, lastResponse t)
  | .fault r => .fault r
  | .refused r => .refused r

/-- A list of operations, each at the instance the host chose for it, with their responses in the order issued. -/
def Fleet.run {n : Nat} : Fleet n → List (Fin n × Instr) → Host.Outcome (Fleet n × List (Option Response)) Fault Refusal
  | f, [] => .next (f, [])
  | f, (k, i) :: jobs =>
    match f.use k i with
    | .next (g, r) =>
      match Fleet.run g jobs with
      | .next (h, rs) => .next (h, r :: rs)
      | .fault e => .fault e
      | .refused e => .refused e
    | .fault e => .fault e
    | .refused e => .refused e

end Sys2Proof.Machine
end

