-- ==== Sys2Proof/Safety.lean ====
section
/-! DEFINITION. What counts as a good state: the outputs on driven ports are the function of the inputs, and every
observed response is the one the transaction level gives. -/

namespace Sys2Proof.Machine

/-- The encoder unit's outputs are the function of its input (spec/10_state.md R17; spec/70_reset_and_hazards.md R101). -/
abbrev State.EncoderFollows (s : State) : Prop := ∀ p, s.enc = some p → p = encoderUnit p.encValue

/-- The decoder unit's outputs are the function of its inputs (R17, R101). -/
abbrev State.DecoderFollows (s : State) : Prop := ∀ p, s.dec = some p → p = decoderUnit p.decData p.decAvail

/-- Every pair that was read carries the response of its operation (spec/70_reset_and_hazards.md R107;
spec/43_codec_laws.md R82, R83). -/
abbrev State.ObservationRight (s : State) : Prop := ∀ p ∈ s.observed, p.2 = responseOf p.1

/-- A good state: all three. -/
abbrev State.Coherent (s : State) : Prop := s.EncoderFollows ∧ s.DecoderFollows ∧ s.ObservationRight

/-- The legal values of the encoder unit's outputs (spec/10_state.md R15, last column of the port table;
spec/40_encode.md R52). -/
abbrev EncPorts.Legal (p : EncPorts) : Prop :=
  (p.encLen = 1 ∨ p.encLen = 3 ∨ p.encLen = 5 ∨ p.encLen = 9) ∧ p.encStatus = 0 ∧
  ∀ j, p.encLen.toNat ≤ j → j < 9 → lane p.encData j = 0

/-- The legal values of the decoder unit's outputs (spec/10_state.md R16, last column of the port table, with the values
that spec/41_decode.md R66 and spec/60_exceptions.md R85 give on an error). -/
abbrev DecPorts.Legal (p : DecPorts) : Prop :=
  (p.decStatus = 0 ∧ (p.decConsumed = 1 ∨ p.decConsumed = 3 ∨ p.decConsumed = 5 ∨ p.decConsumed = 9)) ∨
  (p.decStatus = 1 ∧ p.decConsumed = 0 ∧ p.decValue = 0)

/-- All driven ports are legal. -/
abbrev State.LegalOutputs (s : State) : Prop :=
  (∀ p, s.enc = some p → p.Legal) ∧ ∀ p, s.dec = some p → p.Legal

end Sys2Proof.Machine
end

