-- ==== Sys2Proof/Certificates/Slice0/Obligations.lean ====
section
/-! DEFINITION. The statements for the provers. Each docstring names the rule of spec/ it formalises. -/

open Sys2Proof Sys2Proof.Machine

/-! ## The machine as a whole -/

/-- At reset nothing is retained and no output needs a value first (R19, R100, R101): the state is coherent with legal
outputs, and every first operation from it answers its response. That reset has no request, no driven port and nothing
read is the model's choice: notes/assumptions/1.md and 4.md for the request and what was read, 2.md for the ports. -/
def Obligations.ResetIsCoherent : Prop :=
  State.reset.Coherent ∧ State.reset.LegalOutputs ∧
  State.reset.block = () ∧ State.reset.request = none ∧ State.reset.enc = none ∧ State.reset.dec = none ∧
  State.reset.observed = [] ∧
  ∀ i : Instr, ∃ t, exec i State.reset = .next t ∧ t.observed = [(i, responseOf i)]

/-- R17, R101, R107: every step, and every instruction of a transaction, leads from a state in which the driven outputs
follow the inputs and what was read are the right responses to such a state. -/
def Obligations.StepKeepsCoherence : Prop :=
  (∀ s t : State, s.Coherent → step s = .next t → t.Coherent) ∧
  ∀ (i : Instr) (s t : State), s.Coherent → exec i s = .next t → t.Coherent

/-- R15, R16 (the last columns of the port tables), R52 (zero lanes), R66, R85: every step, and every instruction of a
transaction, keeps the outputs legal. -/
def Obligations.StepKeepsOutputsLegal : Prop :=
  (∀ s t : State, s.LegalOutputs → step s = .next t → t.LegalOutputs) ∧
  ∀ (i : Instr) (s t : State), s.LegalOutputs → exec i s = .next t → t.LegalOutputs

/-- R89: every operation completes with a response, on every input and in every state, and so does every step. -/
def Obligations.EveryOperationAndStepCompletes : Prop :=
  (∀ (i : Instr) (s : State), ∃ t r, exec i s = .next t ∧ t.observed = s.observed ++ [(i, r)]) ∧
  ∀ s : State, ∃ t, step s = .next t

/-- R82, R83: the response that an instruction gives on the ports is the one the transaction level gives its operation,
whatever the state. -/
def Obligations.ExecAnswersTheTransactionLevel : Prop :=
  ∀ (i : Instr) (s : State), ∃ t, exec i s = .next t ∧
    t.observed = s.observed ++ [(i, responseOf i)] ∧ t.request = s.request

/-- A step runs the decoded instruction: a request to one unit is exec of its instruction once the transaction before is
over; a request to both units is the encoder unit's instruction and then the decoder unit's (notes/assumptions/10.md);
with no request nothing happens but that the transaction before is over (notes/assumptions/4.md). -/
def Obligations.StepRunsTheDecodedInstruction : Prop :=
  ∀ s : State,
    (s.request = none → step s = .next (release s)) ∧
    (∀ e, s.request = some (.encoder e) → step s = exec (decodeEncUse e) (release s)) ∧
    (∀ d, s.request = some (.decoder d) → step s = exec (decodeDecUse d) (release s)) ∧
    (∀ e d, s.request = some (.both e d) →
      ∃ t, exec (decodeEncUse e) (release s) = .next t ∧ step s = exec (decodeDecUse d) t)

/-- R10: "the step relation relates a request to a response and nothing else". A step from any state is a function of
the request alone, and what is read is the transaction-level response of each instruction of the request; the same as
the step relation of the block, whose state is the unit type. (The order of the two pairs of a transaction of both units
is notes/assumptions/10.md.) -/
def Obligations.StepRelatesRequestToResponse : Prop :=
  (∀ s s' : State, s.request = s'.request → step s = step s') ∧
  ∀ (s : State) (tx : Transaction), ∃ t, step (s.present tx) = .next t ∧
    t.observed = (decode tx).map (fun i => (i, responseOf i)) ∧ t.request = none ∧
    Block.transact s.block tx = .next ((), t.observed)

/-- R11: a port holds nothing when the host stops driving it. After a step only the ports of the units that its request
uses hold anything, whatever stood on any port before. Two choices of the model are in it: that a unit which the request
does not use is undriven in that transaction (notes/assumptions/3.md), and that a step with no request answers next and
lets go of every port (notes/assumptions/4.md). -/
def Obligations.UndrivenPortsHoldNothing : Prop :=
  ∀ s : State, ∃ t, step s = .next t ∧
    (s.request = none → t.enc = none ∧ t.dec = none) ∧
    (∀ e, s.request = some (.encoder e) → t.enc ≠ none ∧ t.dec = none) ∧
    (∀ d, s.request = some (.decoder d) → t.enc = none ∧ t.dec ≠ none)

/-- The word presented for the fetch is the instruction that the next step runs, in a transaction of its own (the model's
own interface, notes/assumptions/4.md and 7.md). -/
def Obligations.PlacedWordRunsNext : Prop :=
  ∀ (s : State) (nbits w : Nat) (i : Instr),
    decodeTableWord nbits w = some i → step (s.withFetchWord nbits w) = exec i (release s)

/-- R10, R17, R83, R90: the response and the ports of the unit used do not depend on the state the operation finds (an
earlier failure among it). -/
def Obligations.ResponseIgnoresHistory : Prop :=
  ∀ (i : Instr) (s s' : State), ∃ t t', exec i s = .next t ∧ exec i s' = .next t' ∧
    lastResponse t = lastResponse t' ∧
    (∀ v, i = .enc v ∨ i = .size v → t.enc = t'.enc) ∧
    ((∀ v, i ≠ .enc v ∧ i ≠ .size v) → t.dec = t'.dec)

/-- R25 ("Every operation is idempotent"), R72: the same operation again gives the same ports and the same response. -/
def Obligations.RepeatingAnOperationChangesNoPort : Prop :=
  ∀ (i : Instr) (s : State), ∃ t u, exec i s = .next t ∧ exec i t = .next u ∧
    u.enc = t.enc ∧ u.dec = t.dec ∧ lastResponse u = lastResponse t

/-- R15 to R17, R91: in a transaction of both units each unit's ports are what they are when it is used alone, and both
responses are read (in the order of notes/assumptions/10.md). -/
def Obligations.UnitsInOneTransactionAreIndependent : Prop :=
  ∀ (s : State) (e : EncUse) (d : DecUse),
    ∃ t te td, step (s.present (.both e d)) = .next t ∧
      step (s.present (.encoder e)) = .next te ∧
      step (s.present (.decoder d)) = .next td ∧
      t.enc = te.enc ∧ t.dec = td.dec ∧ t.request = none ∧
      t.observed =
        [(decodeEncUse e, responseOf (decodeEncUse e)), (decodeDecUse d, responseOf (decodeDecUse d))]

/-- R85 to R87: TruncatedInput comes from the decoder unit only; InvalidRange and the reserved code come from nothing. -/
def Obligations.OnlyTruncatedInputIsEverRaised : Prop :=
  (∀ (i : Instr) (s : State), ∃ t, exec i s = .next t ∧
    lastResponse t ≠ some (.failed .invalidRange) ∧ lastResponse t ≠ some .reservedStatus ∧
    (lastResponse t = some (.failed .truncatedInput) → ∃ data avail, i = .dec data avail ∨ i.wellFormed = false)) ∧
  (∀ v, (encoderUnit v).encStatus = 0) ∧
  (∀ data avail, (decoderUnit data avail).decStatus = 0 ∨ (decoderUnit data avail).decStatus = 1)

/-! ## ENC and SIZE -/

/-- R50 and R52, with its completion: on every operand of each of the four ranges ENC goes to the next state that has
these encoder ports and this response, and everything else as it was. (That the decoder unit's ports are among what stays
is the model's choice, notes/assumptions/3.md.) -/
def Obligations.EncResult : Prop :=
  ∀ (v : U64) (s : State),
    (v.toNat ≤ 252 → exec (.enc v) s = .next { s with
      enc := some ⟨v, (v.extractLsb' 0 8).setWidth 72, 1, 0⟩
      observed := s.observed ++ [(.enc v, .encoded [v.extractLsb' 0 8])] }) ∧
    (253 ≤ v.toNat → v.toNat ≤ 65535 → exec (.enc v) s = .next { s with
      enc := some ⟨v, (v.extractLsb' 0 16 ++ 0xFD#8).setWidth 72, 3, 0⟩
      observed := s.observed ++ [(.enc v, .encoded [0xFD, v.extractLsb' 0 8, v.extractLsb' 8 8])] }) ∧
    (65536 ≤ v.toNat → v.toNat ≤ 4294967295 → exec (.enc v) s = .next { s with
      enc := some ⟨v, (v.extractLsb' 0 32 ++ 0xFE#8).setWidth 72, 5, 0⟩
      observed := s.observed ++ [(.enc v, .encoded [0xFE, v.extractLsb' 0 8, v.extractLsb' 8 8,
        v.extractLsb' 16 8, v.extractLsb' 24 8])] }) ∧
    (4294967296 ≤ v.toNat → exec (.enc v) s = .next { s with
      enc := some ⟨v, v ++ 0xFF#8, 9, 0⟩
      observed := s.observed ++ [(.enc v, .encoded [0xFF, v.extractLsb' 0 8, v.extractLsb' 8 8,
        v.extractLsb' 16 8, v.extractLsb' 24 8, v.extractLsb' 32 8, v.extractLsb' 40 8,
        v.extractLsb' 48 8, v.extractLsb' 56 8])] })

/-- R70, with its completion: SIZE goes to the next state that has the encoder unit's ports for `v` and the response 1,
3, 5 or 9 of the range of `v`, and everything else as it was. (That the decoder unit's ports are among what stays is the
model's choice, notes/assumptions/3.md.) -/
def Obligations.SizeResult : Prop :=
  ∀ (v : U64) (s : State),
    ∃ n, exec (.size v) s = .next { s with
        enc := some (encoderUnit v), observed := s.observed ++ [(.size v, .length n)] } ∧
      (v.toNat ≤ 252 → n = 1) ∧ (253 ≤ v.toNat → v.toNat ≤ 65535 → n = 3) ∧
      (65536 ≤ v.toNat → v.toNat ≤ 4294967295 → n = 5) ∧ (4294967296 ≤ v.toNat → n = 9)

/-- R71: SIZE and ENC of the same value drive the same ports, and SIZE's response is the number of bytes of ENC's. -/
def Obligations.SizeReadsTheEncodersLength : Prop :=
  ∀ (v : U64) (s : State), ∃ t u bytes, exec (.enc v) s = .next t ∧ exec (.size v) s = .next u ∧
    t.enc = u.enc ∧ lastResponse t = some (.encoded bytes) ∧ lastResponse u = some (.length bytes.length)

/-- R52: the encoder unit's ports lane by lane, the length and the status, and the four 72-bit forms. -/
def Obligations.EncoderPortBinding : Prop :=
  ∀ v : U64,
    (encoderUnit v).encLen.toNat = lenOf (classOf v) ∧ (encoderUnit v).encStatus = 0 ∧
    (∀ i, i < lenOf (classOf v) → (encodeValue v)[i]? = some (lane (encoderUnit v).encData i)) ∧
    (∀ i, lenOf (classOf v) ≤ i → i ≤ 8 → lane (encoderUnit v).encData i = 0) ∧
    (classOf v = .c1 → (encoderUnit v).encData = (v.extractLsb' 0 8).setWidth 72) ∧
    (classOf v = .c3 → (encoderUnit v).encData = (v.extractLsb' 0 16 ++ 0xFD#8).setWidth 72) ∧
    (classOf v = .c5 → (encoderUnit v).encData = (v.extractLsb' 0 32 ++ 0xFE#8).setWidth 72) ∧
    (classOf v = .c9 → (encoderUnit v).encData = v ++ 0xFF#8)

/-- R53: the seven boundary values of ENC, through exec, in every state. (That the decoder unit's ports stay is the
model's choice, notes/assumptions/3.md.) -/
def Obligations.EncBoundaryValues : Prop :=
  ∀ s : State,
    exec (.enc 252) s = .next (record (.enc 252) (.encoded [0xFC]) (driveEncoder 252 s)) ∧
    exec (.enc 253) s = .next (record (.enc 253) (.encoded [0xFD, 0xFD, 0x00]) (driveEncoder 253 s)) ∧
    exec (.enc 0xFFFF) s = .next (record (.enc 0xFFFF) (.encoded [0xFD, 0xFF, 0xFF]) (driveEncoder 0xFFFF s)) ∧
    exec (.enc 0x10000) s =
      .next (record (.enc 0x10000) (.encoded [0xFE, 0x00, 0x00, 0x01, 0x00]) (driveEncoder 0x10000 s)) ∧
    exec (.enc 0xFFFFFFFF) s =
      .next (record (.enc 0xFFFFFFFF) (.encoded [0xFE, 0xFF, 0xFF, 0xFF, 0xFF]) (driveEncoder 0xFFFFFFFF s)) ∧
    exec (.enc 0x100000000) s = .next (record (.enc 0x100000000)
      (.encoded [0xFF, 0x00, 0x00, 0x00, 0x00, 0x01, 0x00, 0x00, 0x00]) (driveEncoder 0x100000000 s)) ∧
    exec (.enc 0xFFFFFFFFFFFFFFFF) s = .next (record (.enc 0xFFFFFFFFFFFFFFFF)
      (.encoded [0xFF, 0xFF, 0xFF, 0xFF, 0xFF, 0xFF, 0xFF, 0xFF, 0xFF]) (driveEncoder 0xFFFFFFFFFFFFFFFF s))

/-- The frame of ENC and SIZE: the decoder unit's ports, the host's request and what was read before in the transaction
are unchanged; the encoder unit's input port carries the operand (R17). That a unit which the instruction does not use
keeps what it shows in the present transaction is the model's choice (notes/assumptions/3.md). -/
def Obligations.EncoderOperationsFrame : Prop :=
  ∀ (v : U64) (i : Instr) (s : State), i = .enc v ∨ i = .size v →
    ∃ t p r, exec i s = .next t ∧ t.dec = s.dec ∧ t.request = s.request ∧ t.enc = some p ∧ p.encValue = v ∧
      t.observed = s.observed ++ [(i, r)]

/-! ## DEC and the wire formats -/

/-- R65, with its completion: DEC on success, by the first byte. Only lanes below the announced length stand on the
right side, besides the input ports themselves. (That the encoder unit's ports are among what stays is the model's
choice, notes/assumptions/3.md.) -/
def Obligations.DecSuccessResult : Prop :=
  ∀ (data : Window) (avail : Count) (s : State),
    ((lane data 0).toNat < 0xFD → 1 ≤ avail.toNat → exec (.dec data avail) s = .next { s with
      dec := some ⟨data, avail, (data.extractLsb' 0 8).setWidth 64, 1, 0⟩
      observed := s.observed ++ [(.dec data avail, .decoded ((data.extractLsb' 0 8).setWidth 64) 1)] }) ∧
    (lane data 0 = 0xFD → 3 ≤ avail.toNat → exec (.dec data avail) s = .next { s with
      dec := some ⟨data, avail, (data.extractLsb' 8 16).setWidth 64, 3, 0⟩
      observed := s.observed ++ [(.dec data avail, .decoded ((data.extractLsb' 8 16).setWidth 64) 3)] }) ∧
    (lane data 0 = 0xFE → 5 ≤ avail.toNat → exec (.dec data avail) s = .next { s with
      dec := some ⟨data, avail, (data.extractLsb' 8 32).setWidth 64, 5, 0⟩
      observed := s.observed ++ [(.dec data avail, .decoded ((data.extractLsb' 8 32).setWidth 64) 5)] }) ∧
    (lane data 0 = 0xFF → 9 ≤ avail.toNat → exec (.dec data avail) s = .next { s with
      dec := some ⟨data, avail, data.extractLsb' 8 64, 9, 0⟩
      observed := s.observed ++ [(.dec data avail, .decoded (data.extractLsb' 8 64) 9)] })

/-- R66: DEC on an input that is empty or shorter than announced: status 1, value 0, count 0, and the response
TruncatedInput; everything else as it was. (That the encoder unit's ports are among what stays is the model's choice,
notes/assumptions/3.md.) -/
def Obligations.DecTruncatedResult : Prop :=
  ∀ (data : Window) (avail : Count) (s : State),
    avail = 0 ∨ avail.toNat < lenOf (classOfDisc (lane data 0)) →
    exec (.dec data avail) s = .next { s with
      dec := some ⟨data, avail, 0, 0, 1⟩
      observed := s.observed ++ [(.dec data avail, .failed .truncatedInput)] }

/-- The wire rows F1, F3, F5, F9, with their completion (R34, R36, R60): value zero-extended, count 1, 3, 5, 9, status
OK, everything but the decoder unit's ports and what was read as it was. Two choices of the model are in it: that a
format row runs as the decoder unit given exactly that encoding (notes/assumptions/5.md), and that the encoder unit's
ports are among what stays (notes/assumptions/3.md). -/
def Obligations.WireFormatResults : Prop :=
  ∀ s : State,
    (∀ b : Byte, (Instr.f1 b).wellFormed → exec (.f1 b) s = .next { s with
      dec := some ⟨b.setWidth 72, 1, b.setWidth 64, 1, 0⟩
      observed := s.observed ++ [(.f1 b, .decoded (b.setWidth 64) 1)] }) ∧
    (∀ p : BitVec 16, exec (.f3 p) s = .next { s with
      dec := some ⟨(p ++ 0xFD#8).setWidth 72, 3, p.setWidth 64, 3, 0⟩
      observed := s.observed ++ [(.f3 p, .decoded (p.setWidth 64) 3)] }) ∧
    (∀ p : BitVec 32, exec (.f5 p) s = .next { s with
      dec := some ⟨(p ++ 0xFE#8).setWidth 72, 5, p.setWidth 64, 5, 0⟩
      observed := s.observed ++ [(.f5 p, .decoded (p.setWidth 64) 5)] }) ∧
    (∀ p : BitVec 64, exec (.f9 p) s = .next { s with
      dec := some ⟨p ++ 0xFF#8, 9, p, 9, 0⟩
      observed := s.observed ++ [(.f9 p, .decoded p 9)] })

/-- The frame of DEC and the wire formats: the encoder unit's ports, the host's request and what was read before in the
transaction are unchanged (R17). That a unit which the instruction does not use keeps what it shows in the present
transaction is the model's choice (notes/assumptions/3.md). -/
def Obligations.DecoderOperationsFrame : Prop :=
  ∀ (i : Instr) (s : State), (∀ v, i ≠ .enc v ∧ i ≠ .size v) →
    ∃ t r, exec i s = .next t ∧ t.enc = s.enc ∧ t.request = s.request ∧ t.observed = s.observed ++ [(i, r)]

/-- A wire-format instruction gives the response of DEC on any input that begins with its bytes (R34, R60, R63). That a
format row executed as an instruction answers as DEC is the model's choice (notes/assumptions/5.md). -/
def Obligations.WireFormatsAnswerAsDec : Prop :=
  ∀ (i : Instr) (bytes rest : List Byte) (filler : Window) (s : State),
    i.wellFormed = true → encode i = .decoder (.wire bytes) →
    ∃ t u, exec i s = .next t ∧
      exec (.dec (bindLanes (bytes ++ rest) filler) (bindAvail (bytes ++ rest))) s = .next u ∧
      lastResponse t = lastResponse u

/-- R61 at the transaction level: TruncatedInput exactly on these inputs. -/
def Obligations.TruncatedExactlyWhenTooShort : Prop :=
  ∀ s : List Byte,
    (decodeSeq s = .err .truncatedInput ↔
      s = [] ∨ (s.head? = some 0xFD ∧ s.length < 3) ∨ (s.head? = some 0xFE ∧ s.length < 5) ∨
        (s.head? = some 0xFF ∧ s.length < 9)) ∧
    (∀ b, s.head? = some b → b.toNat < 0xFD → decodeSeq s ≠ .err .truncatedInput)

/-- R62: the count of a successful DEC is the length its first byte announces, one of 1, 3, 5, 9, whatever the payload
and whatever more is available. -/
def Obligations.ConsumedIsTheAnnouncedLength : Prop :=
  ∀ (s : List Byte) (v : U64) (n : Nat), decodeSeq s = .ok v n →
    (∃ b, s.head? = some b ∧ n = lenOf (classOfDisc b)) ∧ (n = 1 ∨ n = 3 ∨ n = 5 ∨ n = 9)

/-- R63: bytes after the encoding are ignored. -/
def Obligations.TrailingBytesAreIgnored : Prop :=
  ∀ (b : Byte) (p : List Byte), lenOf (classOfDisc b) ≤ (b :: p).length →
    decodeSeq (b :: p) = decodeSeq ((b :: p).take (lenOf (classOfDisc b)))

/-- R16, R17, R65 on the ports: lanes at index ≥ the announced length, and lanes at index ≥ `dec_avail`, do not
influence the response. -/
def Obligations.DontCareLanesDoNotMatter : Prop :=
  ∀ (d d' : Window) (avail : Count),
    (∀ i, i < avail.toNat → i < lenOf (classOfDisc (lane d 0)) → lane d i = lane d' i) →
    (decoderUnit d avail).decValue = (decoderUnit d' avail).decValue ∧
    (decoderUnit d avail).decConsumed = (decoderUnit d' avail).decConsumed ∧
    (decoderUnit d avail).decStatus = (decoderUnit d' avail).decStatus

/-- R23: "all values from 9 to 15 mean at least 9 bytes are available and give the same response". -/
def Obligations.NineOrMoreAvailableAreTheSame : Prop :=
  ∀ (d : Window) (a a' : Count), 9 ≤ a.toNat → 9 ≤ a'.toNat →
    { decoderUnit d a with decAvail := a' } = decoderUnit d a'

/-- R104: a host that understates `dec_avail` gets TruncatedInput or the response of the truthful count ("safe but
pessimistic"). -/
def Obligations.UnderstatedAvailIsPessimistic : Prop :=
  ∀ (d : Window) (a a' : Count), a.toNat ≤ a'.toNat →
    (decoderUnit d a).decStatus = 1 ∨ { decoderUnit d a with decAvail := a' } = decoderUnit d a'

/-- R64, R39: a non-canonical encoding bound to the ports is decoded like any other, through exec: status OK, the
payload value, the full length. -/
def Obligations.NonCanonicalIsAccepted : Prop :=
  ∀ (b : Byte) (p : List Byte) (filler : Window) (st : State), isNonCanonical (b :: p) = true →
    ∃ t q, exec (.dec (bindLanes (b :: p) filler) (bindAvail (b :: p))) st = .next t ∧
      t.dec = some q ∧ q.decStatus = 0 ∧ q.decValue.toNat = fromLE p ∧ q.decConsumed.toNat = (b :: p).length ∧
      lastResponse t = some (.decoded (BitVec.ofNat 64 (fromLE p)) (b :: p).length)

/-! ## The format primitives -/

/-- R30: the four classes are exactly the four closed intervals. -/
def Obligations.ClassIntervals : Prop :=
  ∀ v : U64,
    (classOf v = .c1 ↔ v.toNat ≤ 252) ∧
    (classOf v = .c3 ↔ 253 ≤ v.toNat ∧ v.toNat ≤ 65535) ∧
    (classOf v = .c5 ↔ 65536 ≤ v.toNat ∧ v.toNat ≤ 4294967295) ∧
    (classOf v = .c9 ↔ 4294967296 ≤ v.toNat ∧ v.toNat ≤ 2 ^ 64 - 1)

/-- R31, R32: the lengths and discriminators of the classes, and that ENC gives a sequence of length 1, 3, 5 or 9 only. -/
def Obligations.LengthsAndDiscriminators : Prop :=
  (lenOf .c1 = 1 ∧ lenOf .c3 = 3 ∧ lenOf .c5 = 5 ∧ lenOf .c9 = 9) ∧
  (disc .c1 = none ∧ disc .c3 = some 253 ∧ disc .c5 = some 254 ∧ disc .c9 = some 255) ∧
  ∀ v : U64, (encodeValue v).length = 1 ∨ (encodeValue v).length = 3 ∨ (encodeValue v).length = 5 ∨
    (encodeValue v).length = 9

/-- R33: the class a first byte announces, for all 256 bytes, and that the first byte of ENC(v) announces the class of
`v`. -/
def Obligations.FirstByteAnnouncesTheClass : Prop :=
  (∀ b : Byte, (b.toNat < 0xFD → classOfDisc b = .c1) ∧ (b = 0xFD → classOfDisc b = .c3) ∧
    (b = 0xFE → classOfDisc b = .c5) ∧ (b = 0xFF → classOfDisc b = .c9)) ∧
  ∀ v : U64, ∃ b p, encodeValue v = b :: p ∧ classOfDisc b = classOf v

/-- R41: the seven match and mask sub-patterns of F1 cover exactly the first bytes of class C1. -/
def Obligations.SevenPatternsOfF1 : Prop :=
  ∀ b : Byte,
    (b &&& 0x80 = 0x00 ∨ b &&& 0xC0 = 0x80 ∨ b &&& 0xE0 = 0xC0 ∨ b &&& 0xF0 = 0xE0 ∨ b &&& 0xF8 = 0xF0 ∨
      b &&& 0xFC = 0xF8 ∨ b &&& 0xFF = 0xFC) ↔ classOfDisc b = .c1

/-- R35, R36: the bytes of LE, the value of FromLE as the sum it is and its bound, and that FromLE reads LE back. -/
def Obligations.LittleEndianForms : Prop :=
  (∀ (v : U64) (k : Nat), (le v k).length = k ∧ ∀ j, j < k → (le v k)[j]? = some (v.extractLsb' (8 * j) 8)) ∧
  (∀ p : List Byte, fromLE p = ((List.range p.length).map fun j => (p[j]?.getD 0).toNat * 2 ^ (8 * j)).sum ∧
    fromLE p < 2 ^ (8 * p.length)) ∧
  (∀ (v : U64) (k : Nat), v.toNat < 2 ^ (8 * k) → fromLE (le v k) = v.toNat)

/-- R22, R23: a bound sequence stands on its lanes, and a payload is the bit slice `data[8n−1 : 8]`. -/
def Obligations.LaneBinding : Prop :=
  (∀ (s : List Byte) (filler : Window) (i : Nat), i < 9 →
    lane (bindLanes s filler) i = (s[i]?).getD (lane filler i)) ∧
  (∀ s : List Byte, (bindAvail s).toNat = min s.length 15) ∧
  (∀ (s : List Byte) (filler : Window) (n : Nat), n ≤ 9 → n ≤ s.length →
    fromLE (slice s 1 n) = ((bindLanes s filler).extractLsb' 8 (8 * (n - 1))).toNat)

/-- R43, R37, R33, over the decoder. A string is decodable when DEC consumes exactly it: that is when it has the length
its first byte announces, which is 1, 3, 5 or 9. No decodable string is a proper prefix of another, whether DEC or the
reader of one encoding decodes them, and a stream of decodable strings can be cut into them in exactly one way. -/
def Obligations.DecodableStringsArePrefixFree : Prop :=
  (∀ (b : Byte) (p : List Byte),
    ((∃ v, decodeSeq (b :: p) = .ok v (b :: p).length) ↔ (b :: p).length = lenOf (classOfDisc b)) ∧
    ((b :: p).length = lenOf (classOfDisc b) ↔
      (b.toNat < 0xFD ∧ p.length = 0) ∨ (b = 0xFD ∧ p.length = 2) ∨ (b = 0xFE ∧ p.length = 4) ∨
        (b = 0xFF ∧ p.length = 8))) ∧
  (∀ (s t : List Byte) (v w : U64), decodeSeq s = .ok v s.length → decodeSeq t = .ok w t.length →
    s <+: t → s = t ∧ v = w) ∧
  (∀ (s t : List Byte) (i j : Instr), decodeWire s = .ok i → decodeWire t = .ok j → s <+: t → s = t ∧ i = j) ∧
  ∀ ss ts : List (List Byte),
    (∀ s ∈ ss, ∃ v, decodeSeq s = .ok v s.length) → (∀ t ∈ ts, ∃ w, decodeSeq t = .ok w t.length) →
    ss.flatten = ts.flatten → ss = ts

/-- R44: the length is monotone in the value. -/
def Obligations.LengthIsMonotone : Prop :=
  ∀ v w : U64, v.toNat ≤ w.toNat → lenOf (classOf v) ≤ lenOf (classOf w)

/-! ## The laws that tie the operations together -/

/-- R75, R76: decoding the encoding of a value gives the value and the length of the encoding. -/
def Obligations.RoundTripValueAndCount : Prop :=
  ∀ v : U64, decodeSeq (encodeValue v) = .ok v (encodeValue v).length

/-- R77: SIZE(v) = len(ENC(v)), which is also the count of DEC(ENC(v)) and the encoder unit's length output. -/
def Obligations.LengthAgreement : Prop :=
  ∀ v : U64, encodedLength v = (encodeValue v).length ∧
    (∃ w, decodeSeq (encodeValue v) = .ok w (encodedLength v)) ∧ (encoderUnit v).encLen.toNat = encodedLength v

/-- R78: ENC is injective, and each value has exactly one canonical encoding, ENC(v). -/
def Obligations.CanonicalEncodingIsUnique : Prop :=
  (∀ v w : U64, encodeValue v = encodeValue w → v = w) ∧
  ∀ (v : U64) (s : List Byte), (isCanonical s = true ∧ ∃ n, decodeSeq s = .ok v n) ↔ s = encodeValue v

/-- R79: no encoding of a value is shorter than SIZE, and the one of that length is ENC(v). -/
def Obligations.EncIsMinimal : Prop :=
  ∀ (s : List Byte) (v : U64) (n : Nat), decodeSeq s = .ok v n →
    encodedLength v ≤ n ∧ (n = encodedLength v ↔ s.take n = encodeValue v)

/-- R80: the prefix law. -/
def Obligations.PrefixLaw : Prop :=
  ∀ (v : U64) (t : List Byte), decodeSeq (encodeValue v ++ t) = .ok v (encodeValue v).length

/-- R81: the re-encode law, and that DEC is not injective. -/
def Obligations.ReencodeLaw : Prop :=
  (∀ (s : List Byte) (v : U64) (n : Nat), decodeSeq s = .ok v n →
    (encodeValue v = s.take n ↔ isCanonical (s.take n) = true) ∧
    (encodeValue v = s.take n ↔ encodedLength v = n) ∧
    (isNonCanonical (s.take n) = true → (encodeValue v).length < n)) ∧
  decodeSeq [0x05] = .ok 5 1 ∧ decodeSeq [0xFD, 0x05, 0x00] = .ok 5 3 ∧
  decodeSeq [0xFE, 0x05, 0, 0, 0] = .ok 5 5 ∧ decodeSeq [0xFF, 0x05, 0, 0, 0, 0, 0, 0, 0] = .ok 5 9

/-- R54, R39: ENC produces only canonical encodings: never a non-canonical one, the payload is the value itself, and ENC
is injective. -/
def Obligations.EncNeverNonCanonical : Prop :=
  ∀ v : U64, isNonCanonical (encodeValue v) = false ∧
    (classOf v ≠ .c1 → fromLE (encodeValue v).tail = v.toNat) ∧
    ∀ w : U64, encodeValue v = encodeValue w → v = w

/-- R82: the two levels define the same functions. -/
def Obligations.LevelAgreement : Prop :=
  (∀ v : U64, lanes (encoderUnit v).encData (encoderUnit v).encLen.toNat = encodeValue v ∧
    (encoderUnit v).encLen.toNat = encodedLength v) ∧
  ∀ (s : List Byte) (filler : Window),
    ((decoderUnit (bindLanes s filler) (bindAvail s)).decStatus = 0 ↔ ∃ v n, decodeSeq s = .ok v n) ∧
    (∀ v n, decodeSeq s = .ok v n →
      (decoderUnit (bindLanes s filler) (bindAvail s)).decValue = v ∧
      (decoderUnit (bindLanes s filler) (bindAvail s)).decConsumed.toNat = n) ∧
    ((decoderUnit (bindLanes s filler) (bindAvail s)).decStatus = 1 ↔ decodeSeq s = .err .truncatedInput)

/-! ## Runs, the host's cursor, several instances -/

/-- R107, R83, R18: a run takes the host's list of operations as an argument, from any state, issued by a truthful host
with anything on the lanes past its sequences; it ends, and its observation is the element-wise map of the three functions
over the list. -/
def Obligations.RunIsTheMapOfTheOperations : Prop :=
  ∀ (filler : Window) (ops : List Operation) (s : State),
    ∃ t, runFrom (ops.map (Operation.transaction filler)) s =
      .next (t, ops.map fun o => (o.instr filler, o.response))

/-- R105: the cursor moves by `consumed` on success and stays on TruncatedInput; the stream is not changed. (That the
caller always uses its right to advance on success and that its cursor never wraps are the model's choices,
notes/assumptions/13.md and 16.md.) -/
def Obligations.CursorRule : Prop :=
  ∀ (c : Caller) (filler : Window) (s : State), ∃ c' t, c.turn filler s = .next (c', t) ∧ c'.buf = c.buf ∧
    (∀ v n, decodeSeq c.rest = .ok v n → c'.cur = c.cur + n ∧ lastResponse t = some (.decoded v n)) ∧
    (∀ k, decodeSeq c.rest = .err k → c'.cur = c.cur ∧ lastResponse t = some (.failed k))

/-- R80, R105 (Program 1 for every list of values): a host that reads a stream of concatenated encodings from where it
begins gets the values back in order and ends at its end, whatever stands before and after it. (That the caller always
advances on success and that its cursor never wraps are the model's choices, notes/assumptions/13.md and 16.md.) -/
def Obligations.StreamIsReadBack : Prop :=
  ∀ (vals : List U64) (before after : List Byte) (filler : Window) (s : State),
    ∃ t, Caller.turns filler vals.length ⟨before ++ vals.flatMap encodeValue ++ after, before.length⟩ s =
      .next (⟨before ++ vals.flatMap encodeValue ++ after,
        before.length + (vals.flatMap encodeValue).length⟩, t,
        vals.map fun v => some (.decoded v (encodedLength v)))

/-- R95, R26: operations given to any number of instances in any way get the responses they get alone. -/
def Obligations.InstancesDoNotMatter : Prop :=
  ∀ (n : Nat) (f : Fleet n) (jobs : List (Fin n × Instr)),
    ∃ g, f.run jobs = .next (g, jobs.map fun j => some (responseOf j.2))

/-- R94: the count is the operation's own and does not accumulate: after any two uses of DEC the port holds the second
one's count, the announced length on success and 0 on error. -/
def Obligations.CountDoesNotAccumulate : Prop :=
  ∀ (d d' : Window) (a a' : Count) (s : State), ∃ t u p,
    exec (.dec d a) s = .next t ∧ exec (.dec d' a') t = .next u ∧ u.dec = some p ∧
    (p.decStatus = 0 → p.decConsumed.toNat = lenOf (classOfDisc (lane d' 0))) ∧
    (p.decStatus ≠ 0 → p.decConsumed = 0)

/-! ## Encodings -/

/-- Decode and encode agree on every well-formed instruction, every operand at every value (R34, R41). -/
def Obligations.DecodeOfEncode : Prop :=
  ∀ i : Instr, i.wellFormed = true → decode (encode i) = [i]

/-- The same on opcode-table words: every row but SIZE, whose request word is ENC's (R41; notes/assumptions/6.md, 7.md). -/
def Obligations.DecodeOfTableWord : Prop :=
  ∀ i : Instr, i.wellFormed = true →
    ((∀ v, i ≠ .size v) → decodeTableWord (encodeTableWord i).1 (encodeTableWord i).2 = some i) ∧
    (∀ v, i = .size v → decodeTableWord (encodeTableWord i).1 (encodeTableWord i).2 = some (.enc v))

/-- The other direction on the wire: a string read as an instruction is that instruction's encoding, and the instruction
is well formed (R34, R37). -/
def Obligations.EncodeOfDecodeWire : Prop :=
  ∀ (s : List Byte) (i : Instr), decodeWire s = .ok i → i.wellFormed = true ∧ encode i = .decoder (.wire s)

/-- A few words written out from the formats of R34 and the request words of R41 decode to their instructions. That the
length of a word tells the unit (64, 80) and that the 64-bit word, which is SIZE's too, reads as ENC is the model's
choice (notes/assumptions/7.md and 6.md). -/
def Obligations.WordsDecodeRight : Prop :=
  decodeTableWord 8 0b11111100 = some (.f1 252) ∧
  decodeTableWord 24 0b00000010_00000011_11111101 = some (.f3 515) ∧
  decodeTableWord 40 0b00010010_00110100_01010110_01111000_11111110 = some (.f5 0x12345678) ∧
  decodeTableWord 72 0x0123456789ABCDEFFF = some (.f9 0x0123456789ABCDEF) ∧
  decodeTableWord 64 0x1234 = some (.enc 0x1234) ∧
  decodeTableWord 80 0x30000000000000203FD = some (.dec 0x0203FD 3)
end

