-- ==== Sys2Proof/Laws/Operands.lean ====
section
/-! SUPPORT. The format primitives and the lane binding: what each definition says, once. -/

namespace Sys2Proof.Machine

/-! ## Lengths and classes -/

theorem lenOf_pos (c : LenClass) : 1 ≤ lenOf c := by cases c <;> decide

theorem lenOf_le_laneCount (c : LenClass) : lenOf c ≤ Config.laneCount := by cases c <;> decide

/-- A class lies inside its closed interval (R30). -/
theorem classOf_spec (v : U64) :
    (classOf v = .c1 ∧ v.toNat ≤ 252) ∨
    (classOf v = .c3 ∧ 253 ≤ v.toNat ∧ v.toNat ≤ 65535) ∨
    (classOf v = .c5 ∧ 65536 ≤ v.toNat ∧ v.toNat ≤ 4294967295) ∨
    (classOf v = .c9 ∧ 4294967296 ≤ v.toNat) := by
  unfold classOf
  split_ifs <;> simp <;> omega

theorem classOfDisc_of_lt {b : Byte} (h : b.toNat < 0xFD) : classOfDisc b = .c1 := by
  simp [classOfDisc, h]

@[simp] theorem classOfDisc_fd : classOfDisc 0xFD#8 = .c3 := rfl
@[simp] theorem classOfDisc_fe : classOfDisc 0xFE#8 = .c5 := rfl
@[simp] theorem classOfDisc_ff : classOfDisc 0xFF#8 = .c9 := rfl

/-- Every first byte is a value byte or one of the three discriminators (R33). -/
theorem classOfDisc_spec (b : Byte) :
    (classOfDisc b = .c1 ∧ b.toNat < 0xFD) ∨ (classOfDisc b = .c3 ∧ b = 0xFD) ∨
    (classOfDisc b = .c5 ∧ b = 0xFE) ∨ (classOfDisc b = .c9 ∧ b = 0xFF) := by
  revert b; decide

/-! ## Little-endian payloads -/

@[simp] theorem fromLE_nil : fromLE [] = 0 := rfl
@[simp] theorem fromLE_cons (b : Byte) (p : List Byte) : fromLE (b :: p) = b.toNat + 256 * fromLE p := rfl

theorem fromLE_lt (p : List Byte) : fromLE p < 256 ^ p.length := by
  induction p with
  | nil => simp
  | cons b p ih =>
    have hb : b.toNat < 256 := b.isLt
    simp only [fromLE_cons, List.length_cons, pow_succ]
    omega

theorem byteOf_toNat (v : U64) (j : Nat) : (byteOf v j).toNat = v.toNat / 256 ^ j % 256 := by
  simp [byteOf, Nat.shiftRight_eq_div_pow, pow_mul]

@[simp] theorem le_length (v : U64) (k : Nat) : (le v k).length = k := by simp [le]

/-- Reading a little-endian form back, for bytes taken from any number by division. -/
theorem fromLE_digits (x : Nat) (f : Nat → Byte) (k i : Nat) (hf : ∀ j, (f j).toNat = x / 256 ^ j % 256) :
    fromLE ((List.range' i k).map f) = x / 256 ^ i % 256 ^ k := by
  induction k generalizing i with
  | zero => simp [Nat.mod_one]
  | succ k ih =>
    simp only [List.range'_succ, List.map_cons, fromLE_cons, hf, ih (i + 1), pow_succ]
    rw [← Nat.div_div_eq_div_mul, Nat.mul_comm (256 ^ k) 256, Nat.mod_mul]

theorem fromLE_le (v : U64) (k : Nat) : fromLE (le v k) = v.toNat % 256 ^ k := by
  have h := fromLE_digits v.toNat (byteOf v) k 0 (byteOf_toNat v)
  simpa [le, List.range_eq_range'] using h

/-! ## Lanes -/

theorem lane_toNat (d : Window) (i : Nat) : (lane d i).toNat = d.toNat / 256 ^ i % 256 := by
  simp [lane, Nat.shiftRight_eq_div_pow, pow_mul]

@[simp] theorem lanes_length (d : Window) (n : Nat) : (lanes d n).length = n := by simp [lanes]

/-- A run of lanes read as a little-endian payload is a bit slice of the window (R22). -/
theorem fromLE_lanes (d : Window) (i k : Nat) :
    fromLE ((List.range' i k).map (lane d)) = (d.extractLsb' (8 * i) (8 * k)).toNat := by
  rw [fromLE_digits d.toNat (lane d) k i (lane_toNat d)]
  simp [Nat.shiftRight_eq_div_pow, pow_mul]

theorem fromLE_getElem (p : List Byte) (i : Nat) : fromLE p / 256 ^ i % 256 = (p[i]?.getD 0).toNat := by
  induction p generalizing i with
  | nil => simp
  | cons b p ih =>
    have hb : b.toNat < 256 := b.isLt
    cases i with
    | zero => simp only [fromLE_cons, pow_zero, Nat.div_one, List.getElem?_cons_zero, Option.getD_some]; omega
    | succ i =>
      have hdiv : (b.toNat + 256 * fromLE p) / 256 = fromLE p := by omega
      rw [List.getElem?_cons_succ, ← ih, fromLE_cons, pow_succ, Nat.mul_comm (256 ^ i), ← Nat.div_div_eq_div_mul, hdiv]

/-- Lane `i` of a window built from bytes is byte `i` (R22). -/
theorem lane_ofLanes (p : List Byte) (i : Nat) (hi : i < 9) : lane (ofLanes p) i = p[i]?.getD 0 := by
  apply BitVec.eq_of_toNat_eq
  rw [lane_toNat, ← fromLE_getElem, ofLanes, BitVec.toNat_ofNat]
  have h72 : (2 : Nat) ^ 72 = 256 ^ i * 256 ^ (9 - i) := by
    rw [← pow_add, show i + (9 - i) = 9 by omega]; norm_num
  rw [h72, Nat.mod_mul_right_div_self]
  exact Nat.mod_mod_of_dvd _ (dvd_pow_self 256 (by omega))

/-- A bound window carries `s[i]` on lane `i` and the filler past the end of `s` (R23). -/
theorem lane_bindLanes (s : List Byte) (filler : Window) (i : Nat) (hi : i < 9) :
    lane (bindLanes s filler) i = (s[i]?).getD (lane filler i) := by
  rw [bindLanes, lane_ofLanes _ _ hi]
  simp [Config.laneCount, hi]

theorem bindAvail_toNat (s : List Byte) : (bindAvail s).toNat = min s.length 15 := by
  simp only [bindAvail, Config.availMax, BitVec.toNat_ofNat]
  omega

theorem lanes_bindLanes (s : List Byte) (filler : Window) (n : Nat) (h9 : n ≤ 9) (hn : n ≤ s.length) :
    lanes (bindLanes s filler) n = s.take n := by
  apply List.ext_getElem
  · simp; omega
  · intro i h1 h2
    simp only [lanes_length] at h1
    simp only [lanes, List.getElem_map, List.getElem_range, List.getElem_take]
    rw [lane_bindLanes _ _ _ (by omega), List.getElem?_eq_getElem (by omega)]
    rfl

/-! ## Status codes -/

@[simp] theorem Status.ofCode_code (st : Status) : Status.ofCode st.code = st := by
  rcases st with _ | k | _
  · rfl
  · cases k <;> rfl
  · rfl

end Sys2Proof.Machine
end

