-- ==== Sys2Proof/Laws/Units.lean ====
section
/-! SUPPORT. What the two units can answer, once each. -/

namespace Sys2Proof.Machine

@[simp] theorem encoderUnit_value (v : U64) : (encoderUnit v).encValue = v := rfl
@[simp] theorem encoderUnit_status (v : U64) : (encoderUnit v).encStatus = 0#2 := rfl

theorem encoderUnit_len (v : U64) : (encoderUnit v).encLen.toNat = lenOf (classOf v) := by
  simp only [encoderUnit]
  cases classOf v <;> rfl

/-- The decoder unit answers in one of two ways (R65, R66). -/
theorem decoderUnit_cases (data : Window) (avail : Count) :
    (1 ≤ avail.toNat ∧ announced data ≤ avail.toNat ∧
      decoderUnit data avail = ⟨data, avail, decoderValue data, BitVec.ofNat 4 (announced data), 0⟩) ∨
    (avail.toNat < announced data ∧ decoderUnit data avail = ⟨data, avail, 0, 0, 1⟩) := by
  by_cases h : announced data ≤ avail.toNat
  · have h1 : 1 ≤ avail.toNat := le_trans (lenOf_pos _) h
    exact .inl ⟨h1, h, by simp [decoderUnit, decoderStatus, h, h1, Status.code]⟩
  · exact .inr ⟨by omega, by simp [decoderUnit, decoderStatus, h, Status.code]⟩

@[simp] theorem decoderUnit_data (data : Window) (avail : Count) : (decoderUnit data avail).decData = data := by
  rcases decoderUnit_cases data avail with ⟨_, _, h⟩ | ⟨_, h⟩ <;> rw [h]

@[simp] theorem decoderUnit_avail (data : Window) (avail : Count) : (decoderUnit data avail).decAvail = avail := by
  rcases decoderUnit_cases data avail with ⟨_, _, h⟩ | ⟨_, h⟩ <;> rw [h]

theorem announced_cases (data : Window) :
    announced data = 1 ∨ announced data = 3 ∨ announced data = 5 ∨ announced data = 9 := by
  unfold announced
  cases classOfDisc (lane data 0) <;> simp [lenOf]

end Sys2Proof.Machine
end

