-- ==== Sys2Proof/Laws/Codec.lean ====
section
/-! SUPPORT. The transaction-level functions in the forms that proofs cite. -/

namespace Sys2Proof.Machine

/-- `s[1..n)` of a nonempty sequence is the first `n - 1` bytes after its first. -/
theorem slice_cons (b : Byte) (p : List Byte) (n : Nat) (hn : 1 ≤ n) : slice (b :: p) 1 n = p.take (n - 1) := by
  obtain ⟨m, rfl⟩ : ∃ m, n = m + 1 := ⟨n - 1, by omega⟩
  simp [slice]

/-- DEC of a nonempty sequence in one equation (R60). -/
theorem decodeSeq_cons (b : Byte) (p : List Byte) :
    decodeSeq (b :: p) =
      if p.length + 1 < lenOf (classOfDisc b) then .err .truncatedInput
      else
        .ok (if classOfDisc b = .c1 then b.setWidth 64
            else BitVec.ofNat 64 (fromLE (slice (b :: p) 1 (lenOf (classOfDisc b)))))
          (lenOf (classOfDisc b)) := by
  simp only [decodeSeq, List.length_cons]
  split_ifs with h1 h2
  · rfl
  · simp [h2, lenOf]
  · cases hc : classOfDisc b <;> simp_all [lenOf]

/-- ENC by class (R50). -/
theorem encodeValue_cases (v : U64) :
    (classOf v = .c1 ∧ encodeValue v = [byteOf v 0]) ∨
    (classOf v = .c3 ∧ encodeValue v = 0xFD :: le v 2) ∨
    (classOf v = .c5 ∧ encodeValue v = 0xFE :: le v 4) ∨
    (classOf v = .c9 ∧ encodeValue v = 0xFF :: le v 8) := by
  rcases h : classOf v <;> simp [encodeValue, h, disc, lenOf]

theorem isNonCanonical_cons (b : Byte) (p : List Byte) :
    isNonCanonical (b :: p) = true ↔
      p.length + 1 = lenOf (classOfDisc b) ∧
        ((classOfDisc b = .c3 ∧ fromLE p ≤ 252) ∨ (classOfDisc b = .c5 ∧ fromLE p ≤ 65535) ∨
          (classOfDisc b = .c9 ∧ fromLE p ≤ 4294967295)) := by
  simp only [isNonCanonical, Bool.and_eq_true, decide_eq_true_eq, List.length_cons]
  cases classOfDisc b <;> simp

/-- A payload is determined by its length and its value. -/
theorem fromLE_injective : ∀ p q : List Byte, p.length = q.length → fromLE p = fromLE q → p = q
  | [], [], _, _ => rfl
  | a :: p, b :: q, hl, h => by
    simp only [fromLE_cons] at h
    have ha := a.isLt
    have hb := b.isLt
    have hab : a = b := BitVec.eq_of_toNat_eq (by omega)
    rw [hab, fromLE_injective p q (by simpa using hl) (by rw [hab] at h; omega)]

/-- Concatenation with a low byte as arithmetic. -/
theorem toNat_append_byte {n : Nat} (x : BitVec n) (y : Byte) : (x ++ y).toNat = 256 * x.toNat + y.toNat := by
  rw [BitVec.toNat_append, ← Nat.shiftLeft_add_eq_or_of_lt y.isLt, Nat.shiftLeft_eq, Nat.mul_comm]

end Sys2Proof.Machine
end

