-- ==== Sys2Proof/Laws/State.lean ====
section
/-! SUPPORT. One lemma per field per update of State, all by rfl, so that no later proof unfolds a record update. -/

namespace Sys2Proof.Machine

variable (s : State) (i : Instr) (r : Response) (v : U64) (data : Window) (avail : Count)
  (read : EncPorts → Response) (bytes : List Byte) (tx : Transaction)

@[simp] theorem release_block : (release s).block = s.block := rfl
@[simp] theorem release_request : (release s).request = none := rfl
@[simp] theorem release_enc : (release s).enc = none := rfl
@[simp] theorem release_dec : (release s).dec = none := rfl
@[simp] theorem release_observed : (release s).observed = [] := rfl

@[simp] theorem driveEncoder_block : (driveEncoder v s).block = s.block := rfl
@[simp] theorem driveEncoder_request : (driveEncoder v s).request = s.request := rfl
@[simp] theorem driveEncoder_enc : (driveEncoder v s).enc = some (encoderUnit v) := rfl
@[simp] theorem driveEncoder_dec : (driveEncoder v s).dec = s.dec := rfl
@[simp] theorem driveEncoder_observed : (driveEncoder v s).observed = s.observed := rfl

@[simp] theorem driveDecoder_block : (driveDecoder data avail s).block = s.block := rfl
@[simp] theorem driveDecoder_request : (driveDecoder data avail s).request = s.request := rfl
@[simp] theorem driveDecoder_enc : (driveDecoder data avail s).enc = s.enc := rfl
@[simp] theorem driveDecoder_dec : (driveDecoder data avail s).dec = some (decoderUnit data avail) := rfl
@[simp] theorem driveDecoder_observed : (driveDecoder data avail s).observed = s.observed := rfl

@[simp] theorem record_block : (record i r s).block = s.block := rfl
@[simp] theorem record_request : (record i r s).request = s.request := rfl
@[simp] theorem record_enc : (record i r s).enc = s.enc := rfl
@[simp] theorem record_dec : (record i r s).dec = s.dec := rfl
@[simp] theorem record_observed : (record i r s).observed = s.observed ++ [(i, r)] := rfl

@[simp] theorem useEncoder_block : (useEncoder i v read s).block = s.block := rfl
@[simp] theorem useEncoder_request : (useEncoder i v read s).request = s.request := rfl
@[simp] theorem useEncoder_enc : (useEncoder i v read s).enc = some (encoderUnit v) := rfl
@[simp] theorem useEncoder_dec : (useEncoder i v read s).dec = s.dec := rfl
@[simp] theorem useEncoder_observed : (useEncoder i v read s).observed =
    s.observed ++ [(i, read (encoderUnit v))] := rfl

@[simp] theorem useDecoder_block : (useDecoder i data avail s).block = s.block := rfl
@[simp] theorem useDecoder_request : (useDecoder i data avail s).request = s.request := rfl
@[simp] theorem useDecoder_enc : (useDecoder i data avail s).enc = s.enc := rfl
@[simp] theorem useDecoder_dec : (useDecoder i data avail s).dec = some (decoderUnit data avail) := rfl
@[simp] theorem useDecoder_observed : (useDecoder i data avail s).observed =
    s.observed ++ [(i, readDecoded (decoderUnit data avail))] := rfl

@[simp] theorem useDecoderOn_block : (useDecoderOn i bytes s).block = s.block := rfl
@[simp] theorem useDecoderOn_request : (useDecoderOn i bytes s).request = s.request := rfl
@[simp] theorem useDecoderOn_enc : (useDecoderOn i bytes s).enc = s.enc := rfl
@[simp] theorem useDecoderOn_dec : (useDecoderOn i bytes s).dec =
    some (decoderUnit (bindLanes bytes 0) (bindAvail bytes)) := rfl
@[simp] theorem useDecoderOn_observed : (useDecoderOn i bytes s).observed =
    s.observed ++ [(i, readDecoded (decoderUnit (bindLanes bytes 0) (bindAvail bytes)))] := rfl

@[simp] theorem present_block : (s.present tx).block = s.block := rfl
@[simp] theorem present_request : (s.present tx).request = some tx := rfl
@[simp] theorem present_enc : (s.present tx).enc = s.enc := rfl
@[simp] theorem present_dec : (s.present tx).dec = s.dec := rfl
@[simp] theorem present_observed : (s.present tx).observed = s.observed := rfl

/-- A presented request is gone, with everything else of its transaction, once the transaction is over. -/
@[simp] theorem release_present : release (s.present tx) = release s := rfl

@[simp] theorem lastResponse_record : lastResponse (record i r s) = some r := by
  simp [lastResponse]

end Sys2Proof.Machine
end

