-- ==== Sys2Proof/Laws/Ops.lean ====
section
/-! SUPPORT. Reading a response, exec's arms, step and the host's run: what each can do, once. -/

namespace Sys2Proof.Machine

/-! ## Reading a response -/

@[simp] theorem respondOn_ok (r : Response) : respondOn 0#2 r = r := rfl
@[simp] theorem respondOn_truncated (r : Response) : respondOn 1#2 r = .failed .truncatedInput := rfl

theorem readLength_encoderUnit (v : U64) : readLength (encoderUnit v) = .length (lenOf (classOf v)) := by
  simp [readLength, encoderUnit_len]

theorem readEncoded_encoderUnit (v : U64) :
    readEncoded (encoderUnit v) = .encoded (lanes (encoderData v) (lenOf (classOf v))) := by
  simp [readEncoded, encoderUnit_len]; rfl

/-- The response of a decoder use, in its two cases (R65, R66). -/
theorem readDecoded_decoderUnit (data : Window) (avail : Count) :
    (announced data ≤ avail.toNat ∧
      readDecoded (decoderUnit data avail) = .decoded (decoderValue data) (announced data)) ∨
    (avail.toNat < announced data ∧ readDecoded (decoderUnit data avail) = .failed .truncatedInput) := by
  rcases decoderUnit_cases data avail with ⟨_, hn, h⟩ | ⟨hn, h⟩
  · refine .inl ⟨hn, ?_⟩
    rw [h]
    rcases announced_cases data with e | e | e | e <;> simp [readDecoded, e]
  · refine .inr ⟨hn, ?_⟩
    rw [h]; rfl

/-! ## The arms of exec -/

section
variable (s : State)

theorem exec_f1 (b : Byte) : exec (.f1 b) s = .next (useDecoderOn (.f1 b) (f1Bytes b) s) := rfl
theorem exec_f3 (p : BitVec 16) : exec (.f3 p) s = .next (useDecoderOn (.f3 p) (f3Bytes p) s) := rfl
theorem exec_f5 (p : BitVec 32) : exec (.f5 p) s = .next (useDecoderOn (.f5 p) (f5Bytes p) s) := rfl
theorem exec_f9 (p : BitVec 64) : exec (.f9 p) s = .next (useDecoderOn (.f9 p) (f9Bytes p) s) := rfl
theorem exec_enc (v : U64) : exec (.enc v) s = .next (useEncoder (.enc v) v readEncoded s) := rfl
theorem exec_size (v : U64) : exec (.size v) s = .next (useEncoder (.size v) v readLength s) := rfl
theorem exec_dec (data : Window) (avail : Count) :
    exec (.dec data avail) s = .next (useDecoder (.dec data avail) data avail s) := rfl

end

/-- The three shapes of a meaning: ENC and SIZE use the encoder unit, each with its own read; every other instruction
uses the decoder unit, on operands that do not depend on the state. -/
theorem exec_shape (i : Instr) :
    (∃ v, i = .enc v ∧ ∀ s, exec i s = .next (useEncoder i v readEncoded s)) ∨
    (∃ v, i = .size v ∧ ∀ s, exec i s = .next (useEncoder i v readLength s)) ∨
    ∃ data avail, (∀ v, i ≠ .enc v ∧ i ≠ .size v) ∧ ∀ s, exec i s = .next (useDecoder i data avail s) := by
  cases i with
  | f1 b => exact .inr (.inr ⟨_, _, by simp, fun s => exec_f1 s b⟩)
  | f3 p => exact .inr (.inr ⟨_, _, by simp, fun s => exec_f3 s p⟩)
  | f5 p => exact .inr (.inr ⟨_, _, by simp, fun s => exec_f5 s p⟩)
  | f9 p => exact .inr (.inr ⟨_, _, by simp, fun s => exec_f9 s p⟩)
  | enc v => exact .inl ⟨v, rfl, fun s => exec_enc s v⟩
  | dec data avail => exact .inr (.inr ⟨_, _, by simp, fun s => exec_dec s data avail⟩)
  | size v => exact .inr (.inl ⟨v, rfl, fun s => exec_size s v⟩)

/-! ## Step -/

@[simp] theorem execAll_nil (s : State) : execAll [] s = .next s := rfl

theorem execAll_cons_next {i : Instr} {is : List Instr} {s t : State} (h : exec i s = .next t) :
    execAll (i :: is) s = execAll is t := by
  simp [execAll, h]

theorem step_of_none {s : State} (h : s.request = none) : step s = .next (release s) := by
  simp [step, h]

theorem step_of_some {s : State} {tx : Transaction} (h : s.request = some tx) :
    step s = execAll (decode tx) (release s) := by
  simp [step, h]

theorem step_present (s : State) (tx : Transaction) : step (s.present tx) = execAll (decode tx) (release s) :=
  step_of_some rfl

/-- One step of the host's run, when the machine's step answers next. -/
theorem runFrom_cons {s t u : State} {tx : Transaction} {txs : List Transaction} {more : List (Instr × Response)}
    (h : step (s.present tx) = .next t) (ht : runFrom txs t = .next (u, more)) :
    runFrom (tx :: txs) s = .next (u, t.observed ++ more) := by
  simp only [runFrom, h, ht]

end Sys2Proof.Machine
end

