-- ==== Sys2Proof/Laws/PerInstr.lean ====
section
/-! SUPPORT. Statements made per instruction. -/

namespace Sys2Proof.Laws.TableWordFits

/-- The opcode-table word of an instruction fits the length the table gives its row. -/
def Statement (i : Instr) : Prop := (encodeTableWord i).2 < 2 ^ (encodeTableWord i).1

theorem f1 (b : Byte) : Statement (.f1 b) := b.isLt

theorem f3 (p : BitVec 16) : Statement (.f3 p) := (p ++ 0xFD#8).isLt

theorem f5 (p : BitVec 32) : Statement (.f5 p) := (p ++ 0xFE#8).isLt

theorem f9 (p : BitVec 64) : Statement (.f9 p) := (p ++ 0xFF#8).isLt

theorem enc (v : U64) : Statement (.enc v) := v.isLt

theorem dec (data : Window) (avail : Count) : Statement (.dec data avail) :=
  lt_trans (avail ++ data).isLt (Nat.pow_lt_pow_right (by decide : 1 < 2) (by decide : 76 < 80))

theorem size (v : U64) : Statement (.size v) := v.isLt

end Sys2Proof.Laws.TableWordFits
end

