-- ==== Sys2Proof/Tests/Slice0.lean ====
section
/-! SUPPORT. Tests whose expected results come from spec/95_test_vectors.md, words written out from spec/30_encoding.md
R34 and R41, and a witness for every statement with hypotheses. -/

namespace Sys2Proof.Tests

open Machine

/-- The state after one instruction from reset. -/
def after (i : Instr) : State :=
  match exec i State.reset with
  | .next t => t
  | .fault _ | .refused _ => State.reset

/-- The state after one step from a state, or the state itself. -/
def stepped (s : State) : State :=
  match step s with
  | .next t => t
  | .fault _ | .refused _ => s

/-! ## WellFormed refuses an ill-formed term -/

theorem test_f1_of_a_discriminator_is_ill_formed : (Instr.f1 0xFD).wellFormed = false := by decide
theorem test_f1_of_the_top_value_is_well_formed : (Instr.f1 0xFC).wellFormed = true := by decide

/-! ## Decoding (R34: bytes in wire order; R41: request words) -/

theorem test_decode_f1 : decodeWire [0b11111100] = .ok (.f1 252) := by decide
theorem test_decode_f3 : decodeWire [0b11111101, 0b00000011, 0b00000010] = .ok (.f3 515) := by decide
theorem test_decode_f5 :
    decodeWire [0b11111110, 0b01111000, 0b01010110, 0b00110100, 0b00010010] = .ok (.f5 0x12345678) := by decide
theorem test_decode_f9 :
    decodeWire [0b11111111, 0xEF, 0xCD, 0xAB, 0x89, 0x67, 0x45, 0x23, 0x01] = .ok (.f9 0x0123456789ABCDEF) := by decide
theorem test_decode_enc : decodeTableWord 64 0x203 = some (.enc 515) := by decide
theorem test_decode_dec : decodeTableWord 80 0x500000000BBAA0203FD = some (.dec 0x00000000BBAA0203FD 5) := by decide
theorem test_decode_size : decode (.encoder (.size 515)) = [.size 515] := by decide
theorem test_reject_empty : decodeWire [] = .error .emptyInput := by decide
theorem test_reject_truncated : decodeWire [0xFD, 0x01] = .error .truncatedInput := by decide
theorem test_reject_trailing : decodeWire [0x05, 0xFF, 0xFF] = .error .trailingBytes := by decide
theorem test_rejected_string_runs_as_dec :
    decode (.decoder (.wire [0xFD, 0x01])) = [.dec 0x0000000000000001FD 2] := by decide

/-! ## ENC and SIZE (95_test_vectors.md section 2) -/

theorem test_enc_byte_order : lastResponse (after (.enc 515)) = some (.encoded [0xFD, 0x03, 0x02]) := by decide
theorem test_enc_top_bit : (after (.enc 9223372036854775808)).enc =
    some ⟨9223372036854775808, 0x8000000000000000FF, 9, 0⟩ := by decide
theorem test_size_not_the_old_cutoff : lastResponse (after (.size 268435456)) = some (.length 5) := by decide
theorem test_size_top_of_c5 : lastResponse (after (.size 4294967295)) = some (.length 5) := by decide

/-! ## DEC (95_test_vectors.md section 3) -/

theorem test_dec_trailing_bytes : (after (.dec 0x00000000BBAA0203FD 5)).dec =
    some ⟨0x00000000BBAA0203FD, 5, 0x203, 3, 0⟩ := by decide
theorem test_dec_one_short : (after (.dec 0x0123456789ABCDEFFF 8)).dec = some ⟨0x0123456789ABCDEFFF, 8, 0, 0, 1⟩ := by decide

/-! ## The wire formats (95_test_vectors.md section 3) -/

theorem test_f1_top : lastResponse (after (.f1 0xFC)) = some (.decoded 252 1) := by decide
theorem test_f3_noncanonical : lastResponse (after (.f3 5)) = some (.decoded 5 3) := by decide
theorem test_f3_ports : (after (.f3 515)).dec = some ⟨0x0000000000000203FD, 3, 0x203, 3, 0⟩ := by decide
theorem test_f5_zero_extended : lastResponse (after (.f5 0xFFFFFFFF)) = some (.decoded 4294967295 5) := by decide
theorem test_f9_byte_order : lastResponse (after (.f9 0x0123456789ABCDEF)) = some (.decoded 81985529216486895 9) := by
  decide

/-! ## Transactions and steps -/

/-- 95_test_vectors.md section 4, "Units are independent". -/
theorem test_both_units :
    let t := stepped (State.reset.present (.both (.encode 253) (.ports 0x0000000000000001FD 2)))
    t.enc = some ⟨253, 0x00000000000000FDFD, 3, 0⟩ ∧ t.dec = some ⟨0x0000000000000001FD, 2, 0, 0, 1⟩ := by decide

theorem test_step_of_a_placed_word :
    lastResponse (stepped (State.reset.withFetchWord 24 0x0203FD)) = some (.decoded 515 3) := by decide

/-- R11: a decoder transaction after an encoder transaction leaves the encoder unit's ports undriven. -/
theorem test_released_ports : (stepped ((after (.enc 253)).present (.decoder (.wire [5])))).enc = none := by decide

/-- 70_reset_and_hazards.md R107: the observation of a run of two requests. -/
theorem test_run : runFrom [.encoder (.size 253), .decoder (.wire [5])] State.reset =
    .next ((useDecoderOn (.f1 5) [5] State.reset), [(.size 253, .length 3), (.f1 5, .decoded 5 1)]) := by rfl

/-- The opcode table's fixed byte alone, operand bytes of zeros: still the whole instruction. -/
theorem test_short_word : decodeTableWord 8 0xFE = some (.f5 0) := by decide

/-! ## A witness for every statement with hypotheses -/

/-- A state in which both units are driven and a further request is presented. -/
def busy : State := (stepped (State.reset.present (.both (.encode 253) (.wire [0xFD, 0x01])))).present (.encoder (.size 7))

theorem witness_StepKeepsCoherence : busy.Coherent ∧ busy.enc ≠ none ∧ busy.dec ≠ none ∧
    step busy = .next (stepped busy) ∧ exec (.f1 5) busy = .next (useDecoderOn (.f1 5) [5] busy) := by
  refine ⟨⟨?_, ?_, by decide⟩, by decide, by decide, rfl, rfl⟩
  · rintro p ⟨⟩; rfl
  · rintro p ⟨⟩; rfl

theorem witness_StepKeepsOutputsLegal : busy.LegalOutputs ∧
    step busy = .next (stepped busy) ∧ exec (.f1 5) busy = .next (useDecoderOn (.f1 5) [5] busy) := by
  refine ⟨⟨?_, ?_⟩, rfl, rfl⟩
  · rintro p ⟨⟩
    refine ⟨by decide, by decide, fun j h1 h2 => ?_⟩
    have h3 : 3 ≤ j := h1
    interval_cases j <;> decide
  · rintro p ⟨⟩; decide

theorem witness_StepRunsTheDecodedInstruction : State.reset.request = none ∧
    (State.reset.withFetchWord 64 1).request = some (.encoder (.encode 1)) ∧
    (State.reset.withFetchWord 8 1).request = some (.decoder (.wire [1])) ∧
    (busy.present (.both (.size 1) (.wire [1]))).request = some (.both (.size 1) (.wire [1])) := by decide

/-- Two states that differ in everything but the request. -/
theorem witness_StepRelatesRequestToResponse :
    busy.request = (State.reset.present (.encoder (.size 7))).request ∧
    busy ≠ State.reset.present (.encoder (.size 7)) := by decide

/-- From a state in which both units are driven: no request, a request to one unit, a request to the other. -/
theorem witness_UndrivenPortsHoldNothing : (stepped (State.reset.present (.both (.size 1) (.wire [1])))).request = none ∧
    busy.request = some (.encoder (.size 7)) ∧
    (busy.present (.decoder (.wire [1]))).request = some (.decoder (.wire [1])) := by decide

theorem witness_PlacedWordRunsNext : decodeTableWord 40 0xFE = some (.f5 0) := by decide

theorem witness_OnlyTruncatedInputIsEverRaised :
    exec (.dec 0xFD 2) State.reset = .next (after (.dec 0xFD 2)) ∧
    lastResponse (after (.dec 0xFD 2)) = some (.failed .truncatedInput) := ⟨rfl, by decide⟩

theorem witness_EncResult : (252#64).toNat ≤ 252 ∧
    (253 ≤ (253#64).toNat ∧ (65535#64).toNat ≤ 65535 ∧ (253#64).toNat ≤ 65535 ∧ 253 ≤ (65535#64).toNat) ∧
    (65536 ≤ (65536#64).toNat ∧ (65536#64).toNat ≤ 4294967295 ∧ 65536 ≤ (4294967295#64).toNat ∧
      (4294967295#64).toNat ≤ 4294967295) ∧ 4294967296 ≤ (4294967296#64).toNat := by decide

theorem witness_SizeResult : ((0#64).toNat ≤ 252 ∧ (252#64).toNat ≤ 252) ∧
    (253 ≤ (253#64).toNat ∧ (253#64).toNat ≤ 65535 ∧ 253 ≤ (65535#64).toNat ∧ (65535#64).toNat ≤ 65535) ∧
    (65536 ≤ (65536#64).toNat ∧ (65536#64).toNat ≤ 4294967295 ∧ 65536 ≤ (4294967295#64).toNat ∧
      (4294967295#64).toNat ≤ 4294967295) ∧
    4294967296 ≤ (4294967296#64).toNat ∧ 4294967296 ≤ (18446744073709551615#64).toNat := by decide

theorem witness_EncoderPortBinding :
    (classOf 252 = .c1 ∧ classOf 253 = .c3 ∧ classOf 65535 = .c3 ∧ classOf 65536 = .c5 ∧ classOf 4294967295 = .c5 ∧
      classOf 4294967296 = .c9) ∧ 2 < lenOf (classOf 253) ∧ lenOf (classOf 253) ≤ 3 := by decide

theorem witness_EncoderOperationsFrame : (Instr.enc 7 = .enc 7 ∨ Instr.enc 7 = .size 7) ∧
    (Instr.size 7 = .enc 7 ∨ Instr.size 7 = .size 7) := by decide

theorem witness_DecSuccessResult : ((lane 0xFC 0).toNat < 0xFD ∧ 1 ≤ (1#4).toNat) ∧
    (lane 0x0203FD 0 = 0xFD ∧ 3 ≤ (3#4).toNat) ∧ (lane 0xFE 0 = 0xFE ∧ 5 ≤ (5#4).toNat) ∧
    (lane 0xFF 0 = 0xFF ∧ 9 ≤ (9#4).toNat) := by decide

theorem witness_DecTruncatedResult : (0 : Count) = 0 ∧ (2#4).toNat < lenOf (classOfDisc (lane 0xFD 0)) ∧
    (4#4).toNat < lenOf (classOfDisc (lane 0xFE 0)) ∧ (8#4).toNat < lenOf (classOfDisc (lane 0xFF 0)) := by decide

theorem witness_WireFormatResults : (Instr.f1 0x00).wellFormed = true ∧ (Instr.f1 0xFC).wellFormed = true := by decide

theorem witness_DecoderOperationsFrame : ∀ v, Instr.f3 1 ≠ .enc v ∧ Instr.f3 1 ≠ .size v := by simp

theorem witness_WireFormatsAnswerAsDec : (Instr.f3 515).wellFormed = true ∧
    encode (.f3 515) = .decoder (.wire [0xFD, 0x03, 0x02]) := by decide

theorem witness_TruncatedExactlyWhenTooShort :
    ([0x05] : List Byte).head? = some 0x05 ∧ (0x05 : Byte).toNat < 0xFD := by decide

theorem witness_ConsumedIsTheAnnouncedLength : decodeSeq [0xFD, 0x03, 0x02] = .ok 515 3 := by decide

theorem witness_TrailingBytesAreIgnored :
    lenOf (classOfDisc 0xFD) ≤ ([0xFD, 0x03, 0x02, 0xAA] : List Byte).length := by decide

theorem witness_DontCareLanesDoNotMatter : ∀ i, i < (2#4).toNat → i < lenOf (classOfDisc (lane 0x0205 0)) →
    lane 0x0205 i = lane 0xFF05 i := by decide

theorem witness_NineOrMoreAvailableAreTheSame : 9 ≤ (9#4).toNat ∧ 9 ≤ (15#4).toNat := by decide

theorem witness_UnderstatedAvailIsPessimistic : (3#4).toNat ≤ (15#4).toNat ∧ (decoderUnit 0x0203FD 3).decStatus ≠ 1 := by
  decide

theorem witness_NonCanonicalIsAccepted : isNonCanonical [0xFD, 0xFC, 0x00] = true ∧
    isNonCanonical [0xFE, 0xFF, 0xFF, 0x00, 0x00] = true ∧
    isNonCanonical [0xFF, 0xFF, 0xFF, 0xFF, 0xFF, 0x00, 0x00, 0x00, 0x00] = true ∧
    isNonCanonical [0xFD, 0xFD, 0x00] = false := by decide

theorem witness_FirstByteAnnouncesTheClass : (0xFC : Byte).toNat < 0xFD ∧ classOfDisc 0xFD ≠ classOfDisc 0xFE := by
  decide

theorem witness_LittleEndianForms : 3 < 4 ∧ (0xFFFFFFFF#64).toNat < 2 ^ (8 * 4) := by decide

theorem witness_LaneBinding : 8 < 9 ∧ 3 ≤ 9 ∧ 3 ≤ ([0xFD, 0x03, 0x02] : List Byte).length := by decide

theorem witness_DecodableStringsArePrefixFree :
    (decodeSeq [0xFD, 0x03, 0x02] = .ok 515 ([0xFD, 0x03, 0x02] : List Byte).length ∧
      decodeWire [0xFD, 0x03, 0x02] = .ok (.f3 515) ∧
      ([0xFD, 0x03, 0x02] : List Byte) <+: [0xFD, 0x03, 0x02]) ∧
    (∀ s ∈ ([[0xFC], [0xFD, 0x03, 0x02]] : List (List Byte)), ∃ v, decodeSeq s = .ok v s.length) ∧
    ([[0xFC], [0xFD, 0x03, 0x02]] : List (List Byte)).flatten = [0xFC, 0xFD, 0x03, 0x02] := by
  refine ⟨by decide, fun s hs => ?_, rfl⟩
  simp only [List.mem_cons, List.not_mem_nil, or_false] at hs
  rcases hs with rfl | rfl
  · exact ⟨252, by decide⟩
  · exact ⟨515, by decide⟩

/-- The lengths at which the clauses meet: the top byte of class C1 and each discriminator. -/
theorem witness_DecodableStrings_lengths : (0xFC : Byte).toNat < 0xFD ∧ decodeSeq [0xFC] = .ok 252 1 ∧
    decodeSeq [0xFE, 0, 0, 1, 0] = .ok 65536 5 ∧ decodeSeq [0xFF, 0, 0, 0, 0, 1, 0, 0, 0] = .ok 4294967296 9 := by decide

theorem witness_LengthIsMonotone : (252#64).toNat ≤ (253#64).toNat := by decide

theorem witness_CanonicalEncodingIsUnique : isCanonical [0xFD, 0xFD, 0x00] = true ∧
    decodeSeq [0xFD, 0xFD, 0x00] = .ok 253 3 ∧ isCanonical [0xFD, 0x05, 0x00] = false := by decide

theorem witness_EncIsMinimal : decodeSeq [0xFD, 0x05, 0x00] = .ok 5 3 ∧ encodedLength 5 = 1 := by decide

theorem witness_ReencodeLaw : decodeSeq [0xFD, 0x05, 0x00] = .ok 5 3 ∧
    isNonCanonical (([0xFD, 0x05, 0x00] : List Byte).take 3) = true := by decide

theorem witness_EncNeverNonCanonical : classOf 253 ≠ .c1 := by decide

theorem witness_LevelAgreement : decodeSeq [0xFD, 0x03, 0x02] = .ok 515 3 ∧
    decodeSeq [0xFD, 0x01] = .err .truncatedInput := by decide

theorem witness_CursorRule : decodeSeq (Caller.rest ⟨[0xFC, 0xFD, 0x01], 0⟩) = .ok 252 1 ∧
    decodeSeq (Caller.rest ⟨[0xFC, 0xFD, 0x01], 1⟩) = .err .truncatedInput := by decide

theorem witness_CountDoesNotAccumulate : (decoderUnit 0xFC 1).decStatus = 0 ∧ (decoderUnit 0xFD 1).decStatus ≠ 0 := by
  decide

theorem witness_DecodeOfEncode : (Instr.f1 0xFC).wellFormed = true ∧ (Instr.dec 0 0).wellFormed = true := by decide

theorem witness_DecodeOfTableWord : (Instr.f3 1).wellFormed = true ∧ (∀ v, Instr.f3 1 ≠ .size v) ∧
    (Instr.size 1).wellFormed = true := ⟨by decide, by simp, by decide⟩

theorem witness_EncodeOfDecodeWire : decodeWire [0xFC] = .ok (.f1 0xFC) := by decide

end Sys2Proof.Tests
end

section
/-! PROOF. The statements about the state of 10_state.md: what each use of a unit answers and leaves, what a transaction
answers, and the invariants of a step. -/

namespace Sys2Proof.Machine

/-! ## The encoder unit drives the bytes of ENC -/

theorem encodeValue_length (v : U64) : (encodeValue v).length = encodedLength v := by
  unfold encodedLength
  rcases encodeValue_cases v with ⟨hc, he⟩ | ⟨hc, he⟩ | ⟨hc, he⟩ | ⟨hc, he⟩ <;> simp [hc, he, lenOf]

theorem lanes_ofLanes (p : List Byte) (hp : p.length ≤ 9) : lanes (ofLanes p) p.length = p := by
  refine List.ext_getElem (lanes_length _ _) fun i _ hi => ?_
  simp only [lanes, List.getElem_map, List.getElem_range]
  rw [lane_ofLanes p i (by omega), List.getElem?_eq_getElem hi, Option.getD_some]

/-- The port-level data of the encoder unit (R52) is the byte sequence of R50, lane 0 first. -/
theorem encoderData_eq_ofLanes (v : U64) : encoderData v = ofLanes (encodeValue v) := by
  have hv := v.isLt
  apply BitVec.eq_of_toNat_eq
  rcases encodeValue_cases v with ⟨hc, he⟩ | ⟨hc, he⟩ | ⟨hc, he⟩ | ⟨hc, he⟩ <;>
    simp only [encoderData, hc, he, ofLanes, fromLE_cons, fromLE_nil, fromLE_le, byteOf_toNat, toNat_append_byte,
      BitVec.toNat_setWidth, BitVec.extractLsb'_toNat, BitVec.toNat_ofNat, BitVec.reduceToNat, Nat.shiftRight_zero] <;>
    omega

theorem lanes_encoderData (v : U64) : lanes (encoderData v) (lenOf (classOf v)) = encodeValue v := by
  have hlen : (encodeValue v).length = lenOf (classOf v) := encodeValue_length v
  rw [encoderData_eq_ofLanes, ← hlen]
  exact lanes_ofLanes _ (hlen ▸ lenOf_le_laneCount _)

theorem lane_encoderData_of_len_le (v : U64) {j : Nat} (hj : lenOf (classOf v) ≤ j) (h9 : j < 9) :
    lane (encoderData v) j = 0 := by
  have hlen : (encodeValue v).length ≤ j := le_of_eq_of_le (encodeValue_length v) hj
  rw [encoderData_eq_ofLanes, lane_ofLanes _ _ h9, List.getElem?_eq_none hlen, Option.getD_none]

/-! ## The decoder unit reads the available lanes as DEC reads their bytes -/

theorem lanes_succ (d : Window) (n : Nat) : lanes d (n + 1) = lane d 0 :: (List.range' 1 n).map (lane d) := by
  simp [lanes, List.range_eq_range', List.range'_succ]

theorem announced_pos (data : Window) : 1 ≤ announced data := lenOf_pos _

theorem announced_le (data : Window) : announced data ≤ 9 := lenOf_le_laneCount _

/-- The value slice of R65 is the value byte or the payload lanes read least significant first (R36, R60). -/
theorem decoderValue_eq_fromLE (data : Window) :
    decoderValue data =
      if classOfDisc (lane data 0) = .c1 then (lane data 0).setWidth 64
      else BitVec.ofNat 64 (fromLE ((List.range' 1 (announced data - 1)).map (lane data))) := by
  rw [fromLE_lanes, BitVec.ofNat_toNat]
  unfold decoderValue announced
  cases classOfDisc (lane data 0) <;> simp [lenOf, lane]

/-- The two levels agree on DEC (R65 and R60, R61): the ports answer as the transaction level does on the available
lanes. -/
theorem readDecoded_eq_decodeSeq (data : Window) (avail : Count) :
    readDecoded (decoderUnit data avail) = (decodeSeq (boundSeq data avail)).toResponse := by
  have hpos := announced_pos data
  have hle := announced_le data
  rcases hn : min avail.toNat Config.laneCount with _ | n
  · rcases readDecoded_decoderUnit data avail with ⟨ha, _⟩ | ⟨_, hr⟩
    · simp only [Config.laneCount] at hn; omega
    · rw [hr, boundSeq, hn]; rfl
  · have hseq : boundSeq data avail = lane data 0 :: (List.range' 1 n).map (lane data) := by
      rw [boundSeq, hn, lanes_succ]
    simp only [Config.laneCount] at hn
    have hann : lenOf (classOfDisc (lane data 0)) = announced data := rfl
    rw [hseq, decodeSeq_cons, List.length_map, List.length_range', hann]
    rcases readDecoded_decoderUnit data avail with ⟨ha, hr⟩ | ⟨ha, hr⟩
    · have hpayload : slice (lane data 0 :: (List.range' 1 n).map (lane data)) 1 (announced data) =
          (List.range' 1 (announced data - 1)).map (lane data) := by
        rw [slice_cons _ _ _ hpos, ← List.map_take, List.take_range'_of_length_ge (by omega)]
      rw [hr, if_neg (by omega), decoderValue_eq_fromLE, ← hpayload]
      rfl
    · rw [hr, if_pos (by omega)]; rfl

/-- A sequence bound to the ports comes back as its first nine bytes (R23). -/
theorem boundSeq_bind (s : List Byte) (filler : Window) : boundSeq (bindLanes s filler) (bindAvail s) = s.take 9 := by
  have hn : min (bindAvail s).toNat Config.laneCount = min s.length 9 := by
    rw [bindAvail_toNat, Config.laneCount]; omega
  rw [boundSeq, hn, lanes_bindLanes _ _ _ (by omega) (by omega), List.take_eq_take_iff]
  omega

/-! ## What one instruction does -/

theorem useDecoder_of_response {i : Instr} {data : Window} {avail : Count}
    (h : responseOf i = (decodeSeq (boundSeq data avail)).toResponse) (s : State) :
    useDecoder i data avail s = record i (responseOf i) (driveDecoder data avail s) := by
  rw [useDecoder, readDecoded_eq_decodeSeq, h]

/-- A wire-format instruction drives its own bytes, of which the decoder unit reads all. -/
theorem exec_of_wire {i : Instr} {bytes : List Byte} (hlen : bytes.length ≤ 9)
    (h : responseOf i = (decodeSeq bytes).toResponse) (he : ∀ s, exec i s = .next (useDecoderOn i bytes s)) :
    ∃ data avail, ∀ s, exec i s = .next (record i (responseOf i) (driveDecoder data avail s)) := by
  have hr : responseOf i = (decodeSeq (boundSeq (bindLanes bytes 0) (bindAvail bytes))).toResponse := by
    rw [h, boundSeq_bind, List.take_of_length_le hlen]
  exact ⟨_, _, fun s => by rw [he, useDecoderOn, useDecoder_of_response hr]⟩

/-- ENC and SIZE drive the encoder unit with their operand and read the transaction level's response (R50, R70, R82). -/
theorem exec_of_encoder {i : Instr} {v : U64} (hi : i = .enc v ∨ i = .size v) (s : State) :
    exec i s = .next (record i (responseOf i) (driveEncoder v s)) := by
  rcases hi with rfl | rfl
  · rw [exec_enc, useEncoder, readEncoded_encoderUnit, lanes_encoderData]; rfl
  · rw [exec_size, useEncoder, readLength_encoderUnit]; rfl

/-- Every other instruction drives the decoder unit with operands of its own and reads the transaction level's response
(R60, R82). -/
theorem exec_of_decoder {i : Instr} (hi : ∀ v, i ≠ .enc v ∧ i ≠ .size v) :
    ∃ data avail, ∀ s, exec i s = .next (record i (responseOf i) (driveDecoder data avail s)) := by
  cases i with
  | f1 b => exact exec_of_wire (bytes := f1Bytes b) (by simp [f1Bytes]) rfl (exec_f1 · b)
  | f3 p => exact exec_of_wire (bytes := f3Bytes p) (by simp [f3Bytes]) rfl (exec_f3 · p)
  | f5 p => exact exec_of_wire (bytes := f5Bytes p) (by simp [f5Bytes]) rfl (exec_f5 · p)
  | f9 p => exact exec_of_wire (bytes := f9Bytes p) (by simp [f9Bytes]) rfl (exec_f9 · p)
  | dec data avail => exact ⟨data, avail, fun s => by rw [exec_dec, useDecoder_of_response rfl]⟩
  | enc v => exact absurd rfl (hi v).1
  | size v => exact absurd rfl (hi v).2

/-- Every instruction is a use of the encoder unit or of the decoder unit. -/
theorem exec_cases (i : Instr) :
    (∃ v, ∀ s, exec i s = .next (record i (responseOf i) (driveEncoder v s))) ∨
    ∃ data avail, ∀ s, exec i s = .next (record i (responseOf i) (driveDecoder data avail s)) := by
  rcases exec_shape i with ⟨v, hi, _⟩ | ⟨v, hi, _⟩ | ⟨_, _, hi, _⟩
  · exact .inl ⟨v, exec_of_encoder (.inl hi)⟩
  · exact .inl ⟨v, exec_of_encoder (.inr hi)⟩
  · exact .inr (exec_of_decoder hi)

/-- An instruction answers its response in every state, and leaves the host's request (R82, R83, R89). -/
theorem exec_answers (i : Instr) (s : State) :
    ∃ t, exec i s = .next t ∧ t.observed = s.observed ++ [(i, responseOf i)] ∧ t.request = s.request := by
  rcases exec_cases i with ⟨v, h⟩ | ⟨data, avail, h⟩
  · exact ⟨_, h s, rfl, rfl⟩
  · exact ⟨_, h s, rfl, rfl⟩

/-! ## What a transaction does -/

theorem execAll_singleton (i : Instr) (s : State) : execAll [i] s = exec i s := by
  obtain ⟨t, ht, -, -⟩ := exec_answers i s
  rw [execAll_cons_next ht, execAll_nil, ht]

/-- The instructions of a transaction answer their responses in order (R10, R107). -/
theorem execAll_answers (is : List Instr) (s : State) :
    ∃ t, execAll is s = .next t ∧ t.observed = s.observed ++ is.map (fun i => (i, responseOf i)) ∧
      t.request = s.request := by
  induction is generalizing s with
  | nil => exact ⟨s, rfl, by simp, rfl⟩
  | cons i is ih =>
    obtain ⟨u, hu, huo, hur⟩ := exec_answers i s
    obtain ⟨t, ht, hto, htr⟩ := ih u
    exact ⟨t, by rw [execAll_cons_next hu, ht], by simp [hto, huo], htr.trans hur⟩

/-- The block retains nothing (R10), so all states are the same once their transaction is over. -/
theorem release_eq_release (s s' : State) : release s = release s' := rfl

theorem step_congr {s s' : State} (h : s.request = s'.request) : step s = step s' := by
  unfold step
  rw [h, release_eq_release s s']

theorem step_completes (s : State) : ∃ t, step s = .next t := by
  rcases h : s.request with _ | tx
  · exact ⟨_, step_of_none h⟩
  · obtain ⟨t, ht, -, -⟩ := execAll_answers (decode tx) (release s)
    exact ⟨t, (step_of_some h).trans ht⟩

theorem decodeEncUse_cases (e : EncUse) : ∃ v, decodeEncUse e = .enc v ∨ decodeEncUse e = .size v := by
  cases e with
  | encode v => exact ⟨v, .inl rfl⟩
  | size v => exact ⟨v, .inr rfl⟩

theorem ofFormat_not_encoder (b : Byte) (payload : List Byte) (v : U64) :
    ofFormat b payload ≠ .enc v ∧ ofFormat b payload ≠ .size v := by
  unfold ofFormat
  cases classOfDisc b <;> simp

theorem decodeDecUse_not_encoder (d : DecUse) (v : U64) : decodeDecUse d ≠ .enc v ∧ decodeDecUse d ≠ .size v := by
  cases d with
  | ports data avail => simp [decodeDecUse]
  | wire s =>
    simp only [decodeDecUse, decodeWire]
    cases s with
    | nil => simp
    | cons b p =>
      dsimp only
      split_ifs
      · simp
      · simp
      · exact ofFormat_not_encoder b p v

/-- A use of the encoder unit in a transaction sets its ports whatever stood there, and leaves the decoder unit's
(R15 to R17). -/
theorem exec_decodeEncUse (e : EncUse) :
    ∃ v, ∀ s, exec (decodeEncUse e) s =
      .next (record (decodeEncUse e) (responseOf (decodeEncUse e)) (driveEncoder v s)) := by
  obtain ⟨v, hv⟩ := decodeEncUse_cases e
  exact ⟨v, exec_of_encoder hv⟩

/-- The same of a use of the decoder unit. -/
theorem exec_decodeDecUse (d : DecUse) :
    ∃ data avail, ∀ s, exec (decodeDecUse d) s =
      .next (record (decodeDecUse d) (responseOf (decodeDecUse d)) (driveDecoder data avail s)) :=
  exec_of_decoder (decodeDecUse_not_encoder d)

theorem step_of_encoder {s : State} {e : EncUse} (h : s.request = some (.encoder e)) :
    step s = exec (decodeEncUse e) (release s) :=
  (step_of_some h).trans (execAll_singleton _ _)

theorem step_of_decoder {s : State} {d : DecUse} (h : s.request = some (.decoder d)) :
    step s = exec (decodeDecUse d) (release s) :=
  (step_of_some h).trans (execAll_singleton _ _)

theorem step_of_both {s t : State} {e : EncUse} {d : DecUse} (h : s.request = some (.both e d))
    (ht : exec (decodeEncUse e) (release s) = .next t) : step s = exec (decodeDecUse d) t :=
  (step_of_some h).trans ((execAll_cons_next ht).trans (execAll_singleton _ _))

/-! ## Invariants of a step -/

section
variable {P : State → Prop} (hexec : ∀ i s t, P s → exec i s = .next t → P t)
include hexec

/-- What every instruction keeps, a transaction keeps. -/
theorem execAll_preserves : ∀ (is : List Instr) (s t : State), P s → execAll is s = .next t → P t
  | [], s, t, hs, h => by cases h; exact hs
  | i :: is, s, t, hs, h => by
    obtain ⟨u, hu, -, -⟩ := exec_answers i s
    rw [execAll_cons_next hu] at h
    exact execAll_preserves is u t (hexec i s u hs hu) h

/-- What holds once a transaction is over and is kept by every instruction holds after every step. -/
theorem step_establishes (hrelease : ∀ s, P (release s)) (s t : State) (h : step s = .next t) : P t := by
  rcases hr : s.request with _ | tx
  · cases (step_of_none hr).symm.trans h
    exact hrelease s
  · exact execAll_preserves hexec _ _ _ (hrelease s) ((step_of_some hr).symm.trans h)

end

/-- What is kept by driving either unit and recording the right response is kept by every instruction. -/
theorem exec_preserves {P : State → Prop} (henc : ∀ v s, P s → P (driveEncoder v s))
    (hdec : ∀ data avail s, P s → P (driveDecoder data avail s))
    (hrecord : ∀ i s, P s → P (record i (responseOf i) s)) (i : Instr) (s t : State) (hs : P s)
    (h : exec i s = .next t) : P t := by
  rcases exec_cases i with ⟨v, he⟩ | ⟨data, avail, he⟩
  · cases (he s).symm.trans h
    exact hrecord _ _ (henc _ _ hs)
  · cases (he s).symm.trans h
    exact hrecord _ _ (hdec _ _ _ hs)

theorem coherent_idle (b : Block) : (State.idle b).Coherent := ⟨nofun, nofun, nofun⟩

theorem coherent_driveEncoder (v : U64) (s : State) (hs : s.Coherent) : (driveEncoder v s).Coherent := by
  obtain ⟨-, hdec, hobs⟩ := hs
  exact ⟨fun _ hp => Option.some.inj hp ▸ rfl, hdec, hobs⟩

theorem coherent_driveDecoder (data : Window) (avail : Count) (s : State) (hs : s.Coherent) :
    (driveDecoder data avail s).Coherent := by
  obtain ⟨henc, -, hobs⟩ := hs
  exact ⟨henc, fun _ hp => Option.some.inj hp ▸ by simp, hobs⟩

theorem coherent_record (i : Instr) (s : State) (hs : s.Coherent) : (record i (responseOf i) s).Coherent := by
  obtain ⟨henc, hdec, hobs⟩ := hs
  refine ⟨henc, hdec, fun p hp => ?_⟩
  rw [record_observed, List.mem_append, List.mem_singleton] at hp
  rcases hp with hp | rfl
  · exact hobs p hp
  · rfl

theorem exec_preserves_coherent : ∀ (i : Instr) (s t : State), s.Coherent → exec i s = .next t → t.Coherent :=
  exec_preserves coherent_driveEncoder coherent_driveDecoder coherent_record

theorem encoderUnit_legal (v : U64) : (encoderUnit v).Legal := by
  refine ⟨?_, rfl, fun j hj h9 => ?_⟩
  · simp only [encoderUnit]
    cases classOf v <;> decide
  · exact lane_encoderData_of_len_le v (encoderUnit_len v ▸ hj) h9

theorem decoderUnit_legal (data : Window) (avail : Count) : (decoderUnit data avail).Legal := by
  rcases decoderUnit_cases data avail with ⟨_, _, h⟩ | ⟨_, h⟩
  · rw [h]
    rcases announced_cases data with hn | hn | hn | hn <;> simp [DecPorts.Legal, hn]
  · rw [h]
    exact .inr ⟨rfl, rfl, rfl⟩

theorem legalOutputs_idle (b : Block) : (State.idle b).LegalOutputs := ⟨nofun, nofun⟩

theorem legalOutputs_driveEncoder (v : U64) (s : State) (hs : s.LegalOutputs) : (driveEncoder v s).LegalOutputs :=
  ⟨fun _ hp => Option.some.inj hp ▸ encoderUnit_legal v, hs.2⟩

theorem legalOutputs_driveDecoder (data : Window) (avail : Count) (s : State) (hs : s.LegalOutputs) :
    (driveDecoder data avail s).LegalOutputs :=
  ⟨hs.1, fun _ hp => Option.some.inj hp ▸ decoderUnit_legal data avail⟩

theorem legalOutputs_record (i : Instr) (s : State) (hs : s.LegalOutputs) :
    (record i (responseOf i) s).LegalOutputs := hs

theorem exec_preserves_legalOutputs :
    ∀ (i : Instr) (s t : State), s.LegalOutputs → exec i s = .next t → t.LegalOutputs :=
  exec_preserves legalOutputs_driveEncoder legalOutputs_driveDecoder legalOutputs_record

/-! ## Lanes that the decoder unit does not read -/

theorem announced_congr {d d' : Window} (h : lane d 0 = lane d' 0) : announced d = announced d' := by
  unfold announced
  rw [h]

/-- The value depends on the announced lanes only (R65). -/
theorem decoderValue_congr {d d' : Window} (h : ∀ i, i < announced d → lane d i = lane d' i) :
    decoderValue d = decoderValue d' := by
  have h0 : lane d 0 = lane d' 0 := h 0 (announced_pos d)
  have hpayload : (List.range' 1 (announced d - 1)).map (lane d) = (List.range' 1 (announced d - 1)).map (lane d') := by
    refine List.map_congr_left fun i hi => h i ?_
    rw [List.mem_range'_1] at hi
    omega
  rw [decoderValue_eq_fromLE, decoderValue_eq_fromLE, ← announced_congr h0, ← h0, hpayload]

/-! ## The statements -/

/-- Settles O2: driving a unit and recording the transaction level's response each keep coherence, and a step starts
from a released state. -/
theorem stepKeepsCoherence : Obligations.StepKeepsCoherence :=
  ⟨fun s t _ => step_establishes exec_preserves_coherent (fun s => coherent_idle s.block) s t, exec_preserves_coherent⟩

/-- Settles O3: what either unit drives is legal on every input. -/
theorem stepKeepsOutputsLegal : Obligations.StepKeepsOutputsLegal :=
  ⟨fun s t _ => step_establishes exec_preserves_legalOutputs (fun s => legalOutputs_idle s.block) s t,
    exec_preserves_legalOutputs⟩

/-- Settles O10: the operands of each use do not depend on the state, so each unit shows what it shows alone. -/
theorem unitsInOneTransactionAreIndependent : Obligations.UnitsInOneTransactionAreIndependent := by
  intro s e d
  obtain ⟨v, henc⟩ := exec_decodeEncUse e
  obtain ⟨data, avail, hdec⟩ := exec_decodeDecUse d
  exact ⟨_, _, _, (step_of_both rfl (henc _)).trans (hdec _), (step_of_encoder rfl).trans (henc _),
    (step_of_decoder rfl).trans (hdec _), rfl, rfl, rfl, rfl⟩

/-- Settles O26: with no lane available the input is truncated whatever the lanes hold; otherwise lane 0 fixes the
announced length, and the value reads the announced lanes only. -/
theorem dontCareLanesDoNotMatter : Obligations.DontCareLanesDoNotMatter := by
  intro d d' avail h
  have hpos := announced_pos d
  have hann : 1 ≤ avail.toNat → announced d = announced d' := fun h1 => announced_congr (h 0 h1 hpos)
  rcases decoderUnit_cases d avail with ⟨h1, hn, hd⟩ | ⟨hn, hd⟩ <;>
    rcases decoderUnit_cases d' avail with ⟨h1', hn', hd'⟩ | ⟨hn', hd'⟩
  · have hagree : ∀ i, i < announced d → lane d i = lane d' i := fun i hi => h i (by omega) hi
    rw [hd, hd']
    exact ⟨decoderValue_congr hagree, by rw [hann h1], rfl⟩
  · exact absurd (hann h1) (by omega)
  · exact absurd (hann h1') (by omega)
  · rw [hd, hd']
    exact ⟨rfl, rfl, rfl⟩

/-- Settles O55: a step uses the request alone, and its instructions answer in order. -/
theorem stepRelatesRequestToResponse : Obligations.StepRelatesRequestToResponse := by
  refine ⟨fun s s' h => step_congr h, fun s tx => ?_⟩
  obtain ⟨t, ht, hobs, hreq⟩ := execAll_answers (decode tx) (release s)
  have hstep : step (s.present tx) = .next t := (step_present s tx).trans ht
  have hblock : step ((State.idle s.block).present tx) = .next t := (step_congr rfl).trans hstep
  exact ⟨t, hstep, hobs, hreq, by rw [Block.transact, hblock]⟩

/-- Settles O1: nothing is driven or read at reset, and every instruction answers in every state. -/
theorem resetIsCoherent : Obligations.ResetIsCoherent := by
  refine ⟨coherent_idle (), legalOutputs_idle (), rfl, rfl, rfl, rfl, rfl, fun i => ?_⟩
  obtain ⟨t, ht, hobs, -⟩ := exec_answers i State.reset
  exact ⟨t, ht, hobs⟩

/-- Settles O8: what an instruction drives and answers is a function of the instruction. -/
theorem responseIgnoresHistory : Obligations.ResponseIgnoresHistory := by
  intro i s s'
  by_cases hi : ∃ v, i = .enc v ∨ i = .size v
  · obtain ⟨v, hv⟩ := hi
    refine ⟨_, _, exec_of_encoder hv s, exec_of_encoder hv s', by simp, fun _ _ => rfl, fun hne => ?_⟩
    exact (hv.elim (hne v).1 (hne v).2).elim
  · have hne : ∀ v, i ≠ .enc v ∧ i ≠ .size v := fun v => not_or.mp fun hv => hi ⟨v, hv⟩
    obtain ⟨data, avail, h⟩ := exec_of_decoder hne
    exact ⟨_, _, h s, h s', by simp, fun v hv => (hi ⟨v, hv⟩).elim, fun _ => rfl⟩

/-- Settles O17: ENC and SIZE drive the encoder unit and record one pair. -/
theorem encoderOperationsFrame : Obligations.EncoderOperationsFrame :=
  fun v i s hi => ⟨_, encoderUnit v, responseOf i, exec_of_encoder hi s, rfl, rfl, rfl, rfl, rfl⟩

/-- Settles O21: every other instruction drives the decoder unit and records one pair. -/
theorem decoderOperationsFrame : Obligations.DecoderOperationsFrame := by
  intro i s hi
  obtain ⟨data, avail, h⟩ := exec_of_decoder hi
  exact ⟨_, responseOf i, h s, rfl, rfl, rfl⟩

/-- Settles O56: a step begins with every port released and drives the units of its request only. -/
theorem undrivenPortsHoldNothing : Obligations.UndrivenPortsHoldNothing := by
  intro s
  obtain ⟨t, ht⟩ := step_completes s
  refine ⟨t, ht, fun h => ?_, fun e h => ?_, fun d h => ?_⟩
  · cases (step_of_none h).symm.trans ht
    exact ⟨rfl, rfl⟩
  · obtain ⟨v, he⟩ := exec_decodeEncUse e
    cases (he _).symm.trans ((step_of_encoder h).symm.trans ht)
    simp
  · obtain ⟨data, avail, hd⟩ := exec_decodeDecUse d
    cases (hd _).symm.trans ((step_of_decoder h).symm.trans ht)
    simp

end Sys2Proof.Machine
end

section
/-! PROOF. The statements of 20_memory.md: the lanes that carry a bound sequence, the saturated count of available
bytes, and the operation that is repeated. -/

namespace Sys2Proof.Machine

/-! ## The payload on the lanes -/

/-- The lanes of a window after its first are the run of lanes from 1 on. -/
theorem drop_one_lanes (d : Window) (n : Nat) : (lanes d n).drop 1 = (List.range' 1 (n - 1)).map (lane d) := by
  rw [lanes, List.range_eq_range', ← List.map_drop, List.drop_range', Nat.mul_one]

theorem slice_one_eq_map_lane (s : List Byte) (filler : Window) (n : Nat) (h9 : n ≤ 9) (hn : n ≤ s.length) :
    slice s 1 n = (List.range' 1 (n - 1)).map (lane (bindLanes s filler)) := by
  rw [slice, ← lanes_bindLanes s filler n h9 hn, drop_one_lanes]

/-! ## The count of available bytes -/

theorem decoderUnit_of_announced_le {data : Window} {avail : Count} (h : announced data ≤ avail.toNat) :
    decoderUnit data avail = ⟨data, avail, decoderValue data, BitVec.ofNat 4 (announced data), 0⟩ := by
  rcases decoderUnit_cases data avail with ⟨_, _, hd⟩ | ⟨hlt, _⟩
  · exact hd
  · exact absurd h (not_le.mpr hlt)

/-! ## The statements -/

/-- Settles O35: a payload is the run of lanes from 1 on, which reads as a bit slice of the window. -/
theorem laneBinding : Obligations.LaneBinding := by
  refine ⟨lane_bindLanes, bindAvail_toNat, fun s filler n h9 hn => ?_⟩
  rw [slice_one_eq_map_lane s filler n h9 hn]
  exact fromLE_lanes (bindLanes s filler) 1 (n - 1)

/-- Settles O9: the operands that an instruction drives do not depend on the state, so the second use drives what the
first one did. -/
theorem repeatingAnOperationChangesNoPort : Obligations.RepeatingAnOperationChangesNoPort := by
  intro i s
  rcases exec_cases i with ⟨v, h⟩ | ⟨data, avail, h⟩
  · exact ⟨_, _, h s, h _, rfl, rfl, by simp only [lastResponse_record]⟩
  · exact ⟨_, _, h s, h _, rfl, rfl, by simp only [lastResponse_record]⟩

/-- Settles O27: no first byte announces more than nine bytes, so nine available bytes are enough for every input. -/
theorem nineOrMoreAvailableAreTheSame : Obligations.NineOrMoreAvailableAreTheSame := by
  intro d a a' ha ha'
  have hle := announced_le d
  rw [decoderUnit_of_announced_le (hle.trans ha), decoderUnit_of_announced_le (hle.trans ha')]

end Sys2Proof.Machine
end

section
/-! PROOF. The statements of 30_encoding.md: classes and lengths, little-endian forms, the strings that are exactly one
encoding, and that decode and encode agree on the wire and on opcode-table words. -/

namespace Sys2Proof.Machine

/-! ## Classes and lengths -/

/-- The first byte of ENC(v) is the value byte or the discriminator, and announces the class of `v` (R33). -/
theorem encodeValue_first_byte (v : U64) : ∃ b p, encodeValue v = b :: p ∧ classOfDisc b = classOf v := by
  rcases encodeValue_cases v with ⟨hc, he⟩ | ⟨hc, he⟩ | ⟨hc, he⟩ | ⟨hc, he⟩
  · have hv : v.toNat ≤ 252 := by
      rcases classOf_spec v with ⟨_, h⟩ | ⟨h, _⟩ | ⟨h, _⟩ | ⟨h, _⟩
      · exact h
      all_goals simp [hc] at h
    have hb : (byteOf v 0).toNat < 0xFD := by
      rw [byteOf_toNat]; omega
    exact ⟨_, _, he, (classOfDisc_of_lt hb).trans hc.symm⟩
  · exact ⟨_, _, he, hc.symm⟩
  · exact ⟨_, _, he, hc.symm⟩
  · exact ⟨_, _, he, hc.symm⟩

theorem lenOf_cases (c : LenClass) : lenOf c = 1 ∨ lenOf c = 3 ∨ lenOf c = 5 ∨ lenOf c = 9 := by
  cases c <;> simp [lenOf]

/-! ## Little-endian forms -/

theorem pow_256_eq (k : Nat) : 256 ^ k = 2 ^ (8 * k) := by rw [pow_mul]; rfl

theorem le_getElem? (v : U64) {j k : Nat} (hj : j < k) : (le v k)[j]? = some (byteOf v j) := by
  simp [le, hj]

theorem fromLE_eq_sum (p : List Byte) :
    fromLE p = ((List.range p.length).map fun j => (p[j]?.getD 0).toNat * 2 ^ (8 * j)).sum := by
  induction p with
  | nil => rfl
  | cons b p ih =>
    have hshift : ∀ j, ((b :: p)[j + 1]?.getD 0).toNat * 2 ^ (8 * (j + 1)) =
        256 * ((p[j]?.getD 0).toNat * 2 ^ (8 * j)) := fun j => by
      rw [List.getElem?_cons_succ, ← pow_256_eq, ← pow_256_eq, pow_succ]; ring
    rw [fromLE_cons, List.length_cons, List.range_succ_eq_map, List.map_cons, List.sum_cons, List.map_map, ih,
      ← List.sum_map_mul_left, List.map_congr_left fun j _ => (hshift j).symm]
    simp [Function.comp_def]

/-- The bytes of a payload of `k` bytes, least significant first (R34, R35). -/
def payloadBytes {w : Nat} (p : BitVec w) (k : Nat) : List Byte :=
  (List.range' 0 k).map fun j => p.extractLsb' (8 * j) 8

@[simp] theorem payloadBytes_length {w : Nat} (p : BitVec w) (k : Nat) : (payloadBytes p k).length = k := by
  simp [payloadBytes]

theorem f3Bytes_eq (p : BitVec 16) : f3Bytes p = 0xFD#8 :: payloadBytes p 2 := rfl
theorem f5Bytes_eq (p : BitVec 32) : f5Bytes p = 0xFE#8 :: payloadBytes p 4 := rfl
theorem f9Bytes_eq (p : BitVec 64) : f9Bytes p = 0xFF#8 :: payloadBytes p 8 := rfl

/-- A payload read back is the payload (R36). -/
theorem fromLE_payloadBytes {w k : Nat} (hw : w = 8 * k) (p : BitVec w) : fromLE (payloadBytes p k) = p.toNat := by
  have hdigit : ∀ j, (p.extractLsb' (8 * j) 8).toNat = p.toNat / 256 ^ j % 256 := fun j => by
    rw [BitVec.extractLsb'_toNat, Nat.shiftRight_eq_div_pow, pow_256_eq]
  have hp : p.toNat < 256 ^ k := by
    rw [pow_256_eq, ← hw]; exact p.isLt
  rw [payloadBytes, fromLE_digits p.toNat _ k 0 hdigit, pow_zero, Nat.div_one, Nat.mod_eq_of_lt hp]

/-- The word of a discriminator and a payload, the discriminator least significant (R34). -/
theorem fromLE_cons_payloadBytes {w k : Nat} (hw : w = 8 * k) (d : Byte) (p : BitVec w) :
    fromLE (d :: payloadBytes p k) = (p ++ d).toNat := by
  rw [fromLE_cons, fromLE_payloadBytes hw, toNat_append_byte, Nat.add_comm]

theorem ofNat_fromLE_payloadBytes {w k : Nat} (hw : w = 8 * k) (p : BitVec w) :
    BitVec.ofNat w (fromLE (payloadBytes p k)) = p := by
  rw [fromLE_payloadBytes hw, BitVec.ofNat_toNat, BitVec.setWidth_eq]

/-- The payload of a format has the bytes that it was read from (R36). -/
theorem payloadBytes_ofNat_fromLE {w k : Nat} (hw : w = 8 * k) {p : List Byte} (hp : p.length = k) :
    payloadBytes (BitVec.ofNat w (fromLE p)) k = p := by
  have hlt : fromLE p < 2 ^ w := by
    rw [hw, ← pow_256_eq, ← hp]; exact fromLE_lt p
  apply fromLE_injective _ _ (by rw [payloadBytes_length, hp])
  rw [fromLE_payloadBytes hw, BitVec.toNat_ofNat, Nat.mod_eq_of_lt hlt]

/-! ## Strings that are exactly one encoding -/

/-- The string has exactly the length that its first byte announces (R37). -/
def IsOneEncoding : List Byte → Prop
  | [] => False
  | b :: p => p.length + 1 = lenOf (classOfDisc b)

theorem isOneEncoding_cons {b : Byte} {p : List Byte} :
    IsOneEncoding (b :: p) ↔ p.length + 1 = lenOf (classOfDisc b) := Iff.rfl

theorem IsOneEncoding.length_cases {s : List Byte} (h : IsOneEncoding s) :
    s.length = 1 ∨ s.length = 3 ∨ s.length = 5 ∨ s.length = 9 := by
  cases s with
  | nil => exact h.elim
  | cons b p =>
    rw [List.length_cons, isOneEncoding_cons.mp h]
    exact lenOf_cases _

theorem IsOneEncoding.length_le {s : List Byte} (h : IsOneEncoding s) : s.length ≤ 9 := by
  have := h.length_cases
  omega

/-- The four formats by their first byte and length (R33, R34). -/
theorem isOneEncoding_iff_length (b : Byte) (p : List Byte) :
    IsOneEncoding (b :: p) ↔
      (b.toNat < 0xFD ∧ p.length = 0) ∨ (b = 0xFD ∧ p.length = 2) ∨ (b = 0xFE ∧ p.length = 4) ∨
        (b = 0xFF ∧ p.length = 8) := by
  rw [isOneEncoding_cons]
  rcases classOfDisc_spec b with ⟨hc, hb⟩ | ⟨hc, rfl⟩ | ⟨hc, rfl⟩ | ⟨hc, rfl⟩
  · have hne : b ≠ 0xFD#8 ∧ b ≠ 0xFE#8 ∧ b ≠ 0xFF#8 := by
      refine ⟨?_, ?_, ?_⟩ <;> rintro rfl <;> exact absurd hb (by decide)
    simp [hc, hb, hne, lenOf]
  all_goals simp [lenOf]

/-- Two concatenations that begin with one encoding each begin with the same one: the first byte fixes the length. -/
theorem IsOneEncoding.append_inj {s t x y : List Byte} (hs : IsOneEncoding s) (ht : IsOneEncoding t)
    (h : s ++ x = t ++ y) : s = t ∧ x = y := by
  cases s with
  | nil => exact hs.elim
  | cons b p =>
    cases t with
    | nil => exact ht.elim
    | cons c q =>
      have hbc : b = c := (List.cons.inj h).1
      have hlen : (b :: p).length = (c :: q).length := by
        rw [List.length_cons, List.length_cons, isOneEncoding_cons.mp hs, isOneEncoding_cons.mp ht, hbc]
      exact List.append_inj h hlen

theorem IsOneEncoding.eq_of_isPrefix {s t : List Byte} (hs : IsOneEncoding s) (ht : IsOneEncoding t) (h : s <+: t) :
    s = t := by
  obtain ⟨x, hx⟩ := h
  exact (hs.append_inj ht (hx.trans (List.append_nil t).symm)).1

/-- A stream of encodings is cut into them in one way (R43). -/
theorem flatten_injective_of_isOneEncoding : ∀ ss ts : List (List Byte), (∀ s ∈ ss, IsOneEncoding s) →
    (∀ t ∈ ts, IsOneEncoding t) → ss.flatten = ts.flatten → ss = ts
  | [], [], _, _, _ => rfl
  | [], (_ :: _) :: _, _, _, h => nomatch h
  | (_ :: _) :: _, [], _, _, h => nomatch h
  | [] :: _, _, hss, _, _ => (hss [] List.mem_cons_self).elim
  | _, [] :: _, _, hts, _ => (hts [] List.mem_cons_self).elim
  | s :: ss, t :: ts, hss, hts, h => by
    obtain ⟨hs, hss'⟩ := List.forall_mem_cons.mp hss
    obtain ⟨ht, hts'⟩ := List.forall_mem_cons.mp hts
    obtain ⟨hst, hrest⟩ := hs.append_inj ht h
    rw [hst, flatten_injective_of_isOneEncoding ss ts hss' hts' hrest]

/-- The value of one encoding: the value byte or the payload (R33, R36, R60). -/
def encodedValue (b : Byte) (p : List Byte) : U64 :=
  if classOfDisc b = .c1 then b.setWidth 64 else BitVec.ofNat 64 (fromLE p)

theorem slice_payload (b : Byte) (p rest : List Byte) : slice (b :: (p ++ rest)) 1 (p.length + 1) = p := by
  rw [slice_cons _ _ _ (Nat.le_add_left _ _), Nat.add_sub_cancel, List.take_left]

/-- DEC reads the one encoding that a sequence begins with, and ignores what follows (R60, R63). -/
theorem decodeSeq_append {b : Byte} {p : List Byte} (h : IsOneEncoding (b :: p)) (rest : List Byte) :
    decodeSeq (b :: p ++ rest) = .ok (encodedValue b p) (b :: p).length := by
  rw [isOneEncoding_cons] at h
  rw [List.cons_append, decodeSeq_cons, ← h, slice_payload, if_neg (by simp)]
  rfl

theorem decodeSeq_of_isOneEncoding {b : Byte} {p : List Byte} (h : IsOneEncoding (b :: p)) :
    decodeSeq (b :: p) = .ok (encodedValue b p) (b :: p).length := by
  simpa using decodeSeq_append h []

/-- DEC consumes exactly the strings that are one encoding. -/
theorem isOneEncoding_iff_decodeSeq (s : List Byte) : (∃ v, decodeSeq s = .ok v s.length) ↔ IsOneEncoding s := by
  cases s with
  | nil => exact ⟨fun ⟨_, h⟩ => (nomatch h), False.elim⟩
  | cons b p =>
    refine ⟨fun ⟨v, h⟩ => ?_, fun h => ⟨_, decodeSeq_of_isOneEncoding h⟩⟩
    rw [decodeSeq_cons] at h
    split_ifs at h <;> exact (DecResult.ok.inj h).2.symm

/-- The reader of one encoding reads the format of the first byte, from exactly the strings that are one encoding. -/
theorem decodeWire_cons_ok_iff {b : Byte} {p : List Byte} {i : Instr} :
    decodeWire (b :: p) = .ok i ↔ IsOneEncoding (b :: p) ∧ ofFormat b p = i := by
  rw [isOneEncoding_cons, decodeWire, List.length_cons]
  split_ifs with h1 h2
  · simp [h1.ne]
  · simp [h2.ne']
  · simp [le_antisymm (not_lt.mp h2) (not_lt.mp h1)]

theorem isOneEncoding_of_decodeWire {s : List Byte} {i : Instr} (h : decodeWire s = .ok i) : IsOneEncoding s := by
  cases s with
  | nil => cases h
  | cons b p => exact (decodeWire_cons_ok_iff.mp h).1

/-! ## Decode and encode -/

/-- The wire string of a well-formed instruction is one encoding, of its own format (R34). -/
theorem decodeWire_of_encode {i : Instr} {bytes : List Byte} (hi : i.wellFormed = true)
    (h : encode i = .decoder (.wire bytes)) : decodeWire bytes = .ok i := by
  cases i with
  | f1 b =>
    cases h
    have hb : classOfDisc b = .c1 := classOfDisc_of_lt (of_decide_eq_true hi)
    exact decodeWire_cons_ok_iff.mpr ⟨by simp [IsOneEncoding, hb, lenOf], by simp [ofFormat, hb]⟩
  | f3 p =>
    cases h
    exact decodeWire_cons_ok_iff.mpr ⟨rfl, congrArg Instr.f3 (ofNat_fromLE_payloadBytes (k := 2) rfl p)⟩
  | f5 p =>
    cases h
    exact decodeWire_cons_ok_iff.mpr ⟨rfl, congrArg Instr.f5 (ofNat_fromLE_payloadBytes (k := 4) rfl p)⟩
  | f9 p =>
    cases h
    exact decodeWire_cons_ok_iff.mpr ⟨rfl, congrArg Instr.f9 (ofNat_fromLE_payloadBytes (k := 8) rfl p)⟩
  | enc v => cases h
  | dec data avail => cases h
  | size v => cases h

theorem decode_wire {bytes : List Byte} {i : Instr} (h : decodeWire bytes = .ok i) :
    decode (.decoder (.wire bytes)) = [i] := by
  rw [decode, decodeDecUse, h]

theorem decode_encode {i : Instr} (hi : i.wellFormed = true) : decode (encode i) = [i] := by
  cases i with
  | f1 b => exact decode_wire (decodeWire_of_encode hi rfl)
  | f3 p => exact decode_wire (decodeWire_of_encode hi rfl)
  | f5 p => exact decode_wire (decodeWire_of_encode hi rfl)
  | f9 p => exact decode_wire (decodeWire_of_encode hi rfl)
  | enc v => rfl
  | dec data avail => rfl
  | size v => rfl

/-- The format read from one encoding is well formed and has that encoding (R34, R37). -/
theorem encode_ofFormat {b : Byte} {p : List Byte} (h : IsOneEncoding (b :: p)) :
    (ofFormat b p).wellFormed = true ∧ encode (ofFormat b p) = .decoder (.wire (b :: p)) := by
  rcases (isOneEncoding_iff_length b p).mp h with ⟨hb, hp⟩ | ⟨rfl, hp⟩ | ⟨rfl, hp⟩ | ⟨rfl, hp⟩
  · rw [List.length_eq_zero_iff.mp hp, ofFormat, classOfDisc_of_lt hb]
    exact ⟨decide_eq_true hb, rfl⟩
  · exact ⟨rfl, congrArg (Transaction.decoder ∘ .wire ∘ List.cons 0xFD#8) (payloadBytes_ofNat_fromLE (w := 16) rfl hp)⟩
  · exact ⟨rfl, congrArg (Transaction.decoder ∘ .wire ∘ List.cons 0xFE#8) (payloadBytes_ofNat_fromLE (w := 32) rfl hp)⟩
  · exact ⟨rfl, congrArg (Transaction.decoder ∘ .wire ∘ List.cons 0xFF#8) (payloadBytes_ofNat_fromLE (w := 64) rfl hp)⟩

/-! ## Words of the opcode table -/

/-- The word of a wire row is its string, the first byte least significant. -/
theorem encodeTableWord_of_wire {i : Instr} {bytes : List Byte} (h : encode i = .decoder (.wire bytes)) :
    encodeTableWord i = (8 * bytes.length, fromLE bytes) := by
  cases i with
  | f1 b => cases h; rfl
  | f3 p =>
    cases h
    rw [f3Bytes_eq, fromLE_cons_payloadBytes (k := 2) rfl]; rfl
  | f5 p =>
    cases h
    rw [f5Bytes_eq, fromLE_cons_payloadBytes (k := 4) rfl]; rfl
  | f9 p =>
    cases h
    rw [f9Bytes_eq, fromLE_cons_payloadBytes (k := 8) rfl]; rfl
  | enc v => cases h
  | dec data avail => cases h
  | size v => cases h

/-- One encoding on the lanes of a window is found again by the length that lane 0 announces (R37). -/
theorem wireString_ofLanes {s : List Byte} (h : IsOneEncoding s) : wireString (ofLanes s) = s := by
  cases s with
  | nil => exact h.elim
  | cons b p =>
    have h0 : lane (ofLanes (b :: p)) 0 = b := lane_ofLanes _ 0 (by decide)
    rw [wireString, h0, ← isOneEncoding_cons.mp h, ← List.length_cons]
    exact lanes_ofLanes _ h.length_le

theorem tableTransaction_of_isOneEncoding {s : List Byte} (h : IsOneEncoding s) :
    tableTransaction (8 * s.length) (fromLE s) = .decoder (.wire s) := by
  have hlen := h.length_cases
  have hfits : fromLE s < 2 ^ (8 * s.length) := pow_256_eq s.length ▸ fromLE_lt s
  rw [tableTransaction, if_neg (by omega), if_neg (by omega), Nat.mod_eq_of_lt hfits]
  exact congrArg (fun q => Transaction.decoder (.wire q)) (wireString_ofLanes h)

theorem tableTransaction_of_wire {i : Instr} {bytes : List Byte} (hi : i.wellFormed = true)
    (h : encode i = .decoder (.wire bytes)) :
    tableTransaction (encodeTableWord i).1 (encodeTableWord i).2 = encode i := by
  rw [encodeTableWord_of_wire h, h]
  exact tableTransaction_of_isOneEncoding (isOneEncoding_of_decodeWire (decodeWire_of_encode hi h))

theorem tableTransaction_encoderWord (v : U64) : tableTransaction 64 v.toNat = .encoder (.encode v) := by
  simp [tableTransaction]

/-- The request word of the decoder unit is split where its two ports meet (R41). -/
theorem tableTransaction_decoderWord (data : Window) (avail : Count) :
    tableTransaction 80 (avail ++ data).toNat = .decoder (.ports data avail) := by
  have hw : (avail ++ data).toNat = 2 ^ 72 * avail.toNat + data.toNat := by
    rw [BitVec.toNat_append, ← Nat.shiftLeft_add_eq_or_of_lt data.isLt, Nat.shiftLeft_eq, Nat.mul_comm]
  have hdata : BitVec.ofNat 72 (2 ^ 72 * avail.toNat + data.toNat) = data :=
    BitVec.eq_of_toNat_eq (by rw [BitVec.toNat_ofNat, Nat.mul_add_mod, Nat.mod_eq_of_lt data.isLt])
  have havail : (2 ^ 72 * avail.toNat + data.toNat) / 2 ^ 72 = avail.toNat := by
    rw [Nat.mul_add_div (by decide), Nat.div_eq_of_lt data.isLt, Nat.add_zero]
  rw [tableTransaction, if_neg (by decide), if_pos (by decide), hw, hdata, havail, BitVec.ofNat_toNat,
    BitVec.setWidth_eq]

/-- What the host presents for an instruction is what its opcode-table word stands for, but for SIZE, whose word is
ENC's (R41). -/
theorem tableTransaction_encodeTableWord {i : Instr} (hi : i.wellFormed = true) (hsize : ∀ v, i ≠ .size v) :
    tableTransaction (encodeTableWord i).1 (encodeTableWord i).2 = encode i := by
  cases i with
  | f1 b => exact tableTransaction_of_wire hi rfl
  | f3 p => exact tableTransaction_of_wire hi rfl
  | f5 p => exact tableTransaction_of_wire hi rfl
  | f9 p => exact tableTransaction_of_wire hi rfl
  | enc v => exact tableTransaction_encoderWord v
  | dec data avail => exact tableTransaction_decoderWord data avail
  | size v => exact absurd rfl (hsize v)

theorem decodeTableWord_eq_some_iff {nbits w : Nat} {i : Instr} :
    decodeTableWord nbits w = some i ↔ decode (tableTransaction nbits w) = [i] := by
  unfold decodeTableWord
  split
  next j h => simp [h]
  next h => simpa using h i

/-! ## The wire formats as instructions -/

theorem responseOf_of_wire {i : Instr} {bytes : List Byte} (h : encode i = .decoder (.wire bytes)) :
    responseOf i = (decodeSeq bytes).toResponse := by
  cases i <;> cases h <;> rfl

theorem exec_of_encode_wire {i : Instr} {bytes : List Byte} (h : encode i = .decoder (.wire bytes)) (s : State) :
    exec i s = .next (useDecoderOn i bytes s) := by
  cases i <;> cases h <;> rfl

theorem exec_lastResponse (i : Instr) (s : State) :
    ∃ t, exec i s = .next t ∧ lastResponse t = some (responseOf i) := by
  obtain ⟨t, ht, hobs, -⟩ := exec_answers i s
  exact ⟨t, ht, by simp [lastResponse, hobs]⟩

/-- DEC of a bound sequence answers as DEC of the encoding that the sequence begins with (R63). -/
theorem responseOf_dec_bind_append {bytes : List Byte} (h : IsOneEncoding bytes) (rest : List Byte) (filler : Window) :
    responseOf (.dec (bindLanes (bytes ++ rest) filler) (bindAvail (bytes ++ rest))) =
      (decodeSeq bytes).toResponse := by
  cases bytes with
  | nil => exact h.elim
  | cons b p =>
    rw [responseOf, boundSeq_bind, List.take_append, List.take_of_length_le h.length_le, decodeSeq_append h,
      decodeSeq_of_isOneEncoding h]

/-! ## The ports of a wire format -/

/-- A window is its nine lanes (R22). -/
theorem window_ext {d d' : Window} (h : ∀ i, i < 9 → lane d i = lane d' i) : d = d' := by
  have hlanes : (List.range' 0 9).map (lane d) = (List.range' 0 9).map (lane d') :=
    List.map_congr_left fun i hi => h i (by simpa using hi)
  have hvalue := congrArg fromLE hlanes
  rw [fromLE_lanes, fromLE_lanes] at hvalue
  simpa using BitVec.eq_of_toNat_eq hvalue

theorem bindLanes_zero (s : List Byte) : bindLanes s 0 = ofLanes s :=
  window_ext fun i hi => by rw [lane_bindLanes _ _ _ hi, lane_ofLanes _ _ hi]; simp [lane]

theorem announced_bindLanes {b : Byte} {p : List Byte} (h : IsOneEncoding (b :: p)) (filler : Window) :
    announced (bindLanes (b :: p) filler) = (b :: p).length := by
  rw [announced, lane_bindLanes _ _ _ (by decide)]
  exact h.symm

theorem decoderValue_bindLanes {b : Byte} {p : List Byte} (h : IsOneEncoding (b :: p)) (filler : Window) :
    decoderValue (bindLanes (b :: p) filler) = encodedValue b p := by
  have h0 : lane (bindLanes (b :: p) filler) 0 = b := lane_bindLanes _ _ _ (by decide)
  have hpayload : slice (b :: p) 1 (b :: p).length = p := by simpa using slice_payload b p []
  rw [decoderValue_eq_fromLE, announced_bindLanes h, ← slice_one_eq_map_lane _ _ _ h.length_le le_rfl, h0, hpayload]
  rfl

theorem bindAvail_eq_length {s : List Byte} (h : s.length ≤ 9) : bindAvail s = BitVec.ofNat 4 s.length := by
  rw [bindAvail, Config.availMax, min_eq_left (by omega)]

/-- The ports of the decoder unit given exactly one encoding (R65). -/
theorem decoderUnit_of_isOneEncoding {b : Byte} {p : List Byte} (h : IsOneEncoding (b :: p)) :
    decoderUnit (bindLanes (b :: p) 0) (bindAvail (b :: p)) =
      ⟨ofLanes (b :: p), BitVec.ofNat 4 (b :: p).length, encodedValue b p, BitVec.ofNat 4 (b :: p).length, 0⟩ := by
  have hlen := h.length_le
  have havail : announced (bindLanes (b :: p) 0) ≤ (bindAvail (b :: p)).toNat := by
    rw [announced_bindLanes h, bindAvail_toNat]; omega
  rw [decoderUnit_of_announced_le havail, announced_bindLanes h, decoderValue_bindLanes h, bindAvail_eq_length hlen,
    bindLanes_zero]

/-- On the lanes the string of a wire row is its opcode-table word (R22, R41). -/
theorem ofLanes_of_wire {i : Instr} {bytes : List Byte} (h : encode i = .decoder (.wire bytes)) :
    ofLanes bytes = BitVec.ofNat 72 (encodeTableWord i).2 := by
  rw [encodeTableWord_of_wire h, ofLanes]

/-- The next state of a wire format: its encoding on the ports, its value and length as the response (R34, R60). -/
theorem exec_wire {i : Instr} {b : Byte} {p : List Byte} (hi : i.wellFormed = true)
    (h : encode i = .decoder (.wire (b :: p))) (s : State) :
    exec i s = .next { s with
      dec := some ⟨BitVec.ofNat 72 (encodeTableWord i).2, BitVec.ofNat 4 (b :: p).length, encodedValue b p,
        BitVec.ofNat 4 (b :: p).length, 0⟩
      observed := s.observed ++ [(i, .decoded (encodedValue b p) (b :: p).length)] } := by
  have hone := isOneEncoding_of_decodeWire (decodeWire_of_encode hi h)
  have hresponse : responseOf i = .decoded (encodedValue b p) (b :: p).length := by
    rw [responseOf_of_wire h, decodeSeq_of_isOneEncoding hone]; rfl
  have hread : responseOf i = (decodeSeq (boundSeq (bindLanes (b :: p) 0) (bindAvail (b :: p)))).toResponse := by
    rw [responseOf_of_wire h, boundSeq_bind, List.take_of_length_le hone.length_le]
  rw [exec_of_encode_wire h, useDecoderOn, useDecoder_of_response hread, hresponse, driveDecoder,
    decoderUnit_of_isOneEncoding hone, ofLanes_of_wire h]
  rfl

/-- The payload of F3, F5 or F9 is the value, zero-extended (R36). -/
theorem exec_wire_payload {i : Instr} {b : Byte} {w k : Nat} (hb : classOfDisc b ≠ .c1) (hw : w = 8 * k)
    (p : BitVec w) (hi : i.wellFormed = true) (h : encode i = .decoder (.wire (b :: payloadBytes p k))) (s : State) :
    exec i s = .next { s with
      dec := some ⟨BitVec.ofNat 72 (encodeTableWord i).2, BitVec.ofNat 4 (k + 1), p.setWidth 64,
        BitVec.ofNat 4 (k + 1), 0⟩
      observed := s.observed ++ [(i, .decoded (p.setWidth 64) (k + 1))] } := by
  have hval : encodedValue b (payloadBytes p k) = p.setWidth 64 := by
    rw [encodedValue, if_neg hb, fromLE_payloadBytes hw, BitVec.ofNat_toNat]
  rw [exec_wire hi h, hval, List.length_cons, payloadBytes_length]

/-! ## The statements -/

/-- Settles O51: the string of a format is one encoding of that format, and the operations are told by the unit. -/
theorem decodeOfEncode : Obligations.DecodeOfEncode := fun _ => decode_encode

/-- Settles O20: the decoder unit is given exactly one encoding, of which value and length are the format's. -/
theorem wireFormatResults : Obligations.WireFormatResults := by
  intro s
  refine ⟨fun b hb => ?_, fun p => ?_, fun p => ?_, fun p => ?_⟩
  · have hval : encodedValue b [] = b.setWidth 64 := if_pos (classOfDisc_of_lt (of_decide_eq_true hb))
    rw [exec_wire hb rfl, hval, encodeTableWord, BitVec.ofNat_toNat]
    rfl
  · rw [exec_wire_payload (b := 0xFD#8) (k := 2) (by decide) rfl p rfl rfl, encodeTableWord, BitVec.ofNat_toNat]
    rfl
  · rw [exec_wire_payload (b := 0xFE#8) (k := 4) (by decide) rfl p rfl rfl, encodeTableWord, BitVec.ofNat_toNat]
    rfl
  · rw [exec_wire_payload (b := 0xFF#8) (k := 8) (by decide) rfl p rfl rfl, encodeTableWord, BitVec.ofNat_toNat,
      BitVec.setWidth_eq, BitVec.setWidth_eq]
    rfl

/-- Settles O22: both answer the transaction level's response, and DEC ignores what follows the encoding. -/
theorem wireFormatsAnswerAsDec : Obligations.WireFormatsAnswerAsDec := by
  intro i bytes rest filler s hi h
  have hone := isOneEncoding_of_decodeWire (decodeWire_of_encode hi h)
  obtain ⟨t, ht, hrt⟩ := exec_lastResponse i s
  obtain ⟨u, hu, hru⟩ := exec_lastResponse (.dec (bindLanes (bytes ++ rest) filler) (bindAvail (bytes ++ rest))) s
  exact ⟨t, u, ht, hu, by rw [hrt, hru, responseOf_of_wire h, responseOf_dec_bind_append hone]⟩

/-- Settles O32: a value byte of class C1 is below 0xFD, and the other classes write their discriminator. -/
theorem firstByteAnnouncesTheClass : Obligations.FirstByteAnnouncesTheClass :=
  ⟨fun _ => ⟨classOfDisc_of_lt, fun h => h ▸ rfl, fun h => h ▸ rfl, fun h => h ▸ rfl⟩, encodeValue_first_byte⟩

/-- Settles O34: the bytes of LE are the digits of the value to the base 256. -/
theorem littleEndianForms : Obligations.LittleEndianForms := by
  refine ⟨fun v k => ⟨le_length v k, fun j hj => le_getElem? v hj⟩, fun p => ⟨fromLE_eq_sum p, ?_⟩, fun v k hv => ?_⟩
  · exact pow_256_eq p.length ▸ fromLE_lt p
  · rw [fromLE_le, pow_256_eq, Nat.mod_eq_of_lt hv]

/-- Settles O36: the first byte of a decodable string fixes its length. -/
theorem decodableStringsArePrefixFree : Obligations.DecodableStringsArePrefixFree := by
  refine ⟨fun b p => ⟨isOneEncoding_iff_decodeSeq _, isOneEncoding_iff_length b p⟩, fun s t v w hs ht hst => ?_,
    fun s t i j hs ht hst => ?_, fun ss ts hss hts => ?_⟩
  · obtain rfl := ((isOneEncoding_iff_decodeSeq s).mp ⟨v, hs⟩).eq_of_isPrefix
      ((isOneEncoding_iff_decodeSeq t).mp ⟨w, ht⟩) hst
    exact ⟨rfl, (DecResult.ok.inj (hs.symm.trans ht)).1⟩
  · obtain rfl := (isOneEncoding_of_decodeWire hs).eq_of_isPrefix (isOneEncoding_of_decodeWire ht) hst
    exact ⟨rfl, Except.ok.inj (hs.symm.trans ht)⟩
  · exact flatten_injective_of_isOneEncoding ss ts (fun s h => (isOneEncoding_iff_decodeSeq s).mp (hss s h))
      fun t h => (isOneEncoding_iff_decodeSeq t).mp (hts t h)

/-- Settles O52: the word stands for what the host presents for the instruction, or for ENC where it is SIZE's. -/
theorem decodeOfTableWord : Obligations.DecodeOfTableWord := by
  refine fun i hi => ⟨fun hsize => ?_, fun v hv => ?_⟩ <;> rw [decodeTableWord_eq_some_iff]
  · rw [tableTransaction_encodeTableWord hi hsize, decode_encode hi]
  · subst hv
    exact congrArg decode (tableTransaction_encoderWord v)

/-- Settles O53: a string that is read is one encoding, of the format that was read from it. -/
theorem encodeOfDecodeWire : Obligations.EncodeOfDecodeWire := by
  intro s i h
  cases s with
  | nil => cases h
  | cons b p =>
    obtain ⟨hone, rfl⟩ := decodeWire_cons_ok_iff.mp h
    exact encode_ofFormat hone

/-- Settles O7: a step runs the instructions of the presented transaction, which is this one alone. -/
theorem placedWordRunsNext : Obligations.PlacedWordRunsNext := by
  intro s nbits w i h
  rw [State.withFetchWord, step_present, decodeTableWord_eq_some_iff.mp h, execAll_singleton]

/-- Settles O30: each class lies in its interval, and the intervals do not meet. -/
theorem classIntervals : Obligations.ClassIntervals := by
  intro v
  have hv := v.isLt
  rcases classOf_spec v with ⟨hc, h⟩ | ⟨hc, h⟩ | ⟨hc, h⟩ | ⟨hc, h⟩ <;> simp [hc] <;> omega

/-- Settles O31: ENC(v) is as long as the class of `v` says. -/
theorem lengthsAndDiscriminators : Obligations.LengthsAndDiscriminators :=
  ⟨⟨rfl, rfl, rfl, rfl⟩, ⟨rfl, rfl, rfl, rfl⟩, fun v => encodeValue_length v ▸ lenOf_cases _⟩

/-- Settles O33, byte by byte. -/
theorem sevenPatternsOfF1 : Obligations.SevenPatternsOfF1 := by
  unfold Obligations.SevenPatternsOfF1
  decide

/-- Settles O37: the intervals and their lengths are in the same order. -/
theorem lengthIsMonotone : Obligations.LengthIsMonotone := by
  intro v w h
  rcases classOf_spec v with ⟨hv, _⟩ | ⟨hv, _⟩ | ⟨hv, _⟩ | ⟨hv, _⟩ <;>
    rcases classOf_spec w with ⟨hw, _⟩ | ⟨hw, _⟩ | ⟨hw, _⟩ | ⟨hw, _⟩ <;>
    simp only [hv, hw, lenOf] <;> omega

/-- Settles O54: each word by evaluation of the decoder. -/
theorem wordsDecodeRight : Obligations.WordsDecodeRight := by
  refine ⟨?_, ?_, ?_, ?_, ?_, ?_⟩ <;> decide

end Sys2Proof.Machine
end

section
/-! PROOF. The statements of 40_encode.md: the bytes and the 72-bit form of each class, the lanes of the encoder unit, and
that an encoding is read back as its value. -/

namespace Sys2Proof.Machine

/-! ## The four forms of an encoding -/

/-- The bytes that class `c` writes for `v`: C1 the value byte, every other class its discriminator and then its payload,
least significant byte first (R50). ENC(v) is these bytes for the class of `v`: `encodeValue_of_classOf`. -/
def bytesOfClass (c : LenClass) (v : U64) : List Byte :=
  (disc c).elim [byteOf v 0] (· :: le v (lenOf c - 1))

section
variable {v : U64}

theorem encoderData_of_c1 (h : classOf v = .c1) : encoderData v = (v.extractLsb' 0 8).setWidth 72 := by
  rw [encoderData, h]

theorem encoderData_of_c3 (h : classOf v = .c3) : encoderData v = (v.extractLsb' 0 16 ++ 0xFD#8).setWidth 72 := by
  rw [encoderData, h]

theorem encoderData_of_c5 (h : classOf v = .c5) : encoderData v = (v.extractLsb' 0 32 ++ 0xFE#8).setWidth 72 := by
  rw [encoderData, h]

theorem encoderData_of_c9 (h : classOf v = .c9) : encoderData v = v ++ 0xFF#8 := by
  rw [encoderData, h]

theorem encodeValue_of_classOf {c : LenClass} (h : classOf v = c) : encodeValue v = bytesOfClass c v := by
  subst h
  unfold encodeValue bytesOfClass
  cases classOf v <;> rfl

end

/-! ## The next state of ENC -/

theorem exec_enc_of_encodeValue {v : U64} {bytes : List Byte} (h : encodeValue v = bytes) (s : State) :
    exec (.enc v) s = .next (record (.enc v) (.encoded bytes) (driveEncoder v s)) := by
  rw [exec_of_encoder (.inl rfl), responseOf, h]

/-- ENC of a value of class `c` drives the length and the 72-bit form of `c`, and reads its bytes (R50, R52). -/
theorem exec_enc_of_classOf {v : U64} {c : LenClass} {data : Window} (hc : classOf v = c) (hdata : encoderData v = data)
    (s : State) :
    exec (.enc v) s = .next { s with
      enc := some ⟨v, data, BitVec.ofNat 4 (lenOf c), 0⟩
      observed := s.observed ++ [(.enc v, .encoded (bytesOfClass c v))] } := by
  rw [exec_enc_of_encodeValue (encodeValue_of_classOf hc), driveEncoder, encoderUnit, hdata, hc]
  rfl

/-! ## The lanes of the encoder unit -/

theorem encodeValue_getElem? (v : U64) {i : Nat} (hi : i < lenOf (classOf v)) :
    (encodeValue v)[i]? = some (lane (encoderData v) i) := by
  rw [← lanes_encoderData, lanes]
  simp [hi]

/-! ## An encoding is read back -/

/-- Outside class C1 the payload bytes hold the whole value (R35, R36, R54). -/
theorem fromLE_tail_encodeValue {v : U64} (hc : classOf v ≠ .c1) : fromLE (encodeValue v).tail = v.toNat := by
  obtain ⟨-, h3, h5, h9⟩ := classIntervals v
  rcases encodeValue_cases v with ⟨h, _⟩ | ⟨h, he⟩ | ⟨h, he⟩ | ⟨h, he⟩
  · exact absurd h hc
  · have hv := h3.mp h
    rw [he, List.tail_cons, fromLE_le]; omega
  · have hv := h5.mp h
    rw [he, List.tail_cons, fromLE_le]; omega
  · have hv := h9.mp h
    rw [he, List.tail_cons, fromLE_le]; omega

theorem isOneEncoding_encodeValue (v : U64) : IsOneEncoding (encodeValue v) := by
  have hlen := encodeValue_length v
  obtain ⟨b, p, he, hb⟩ := encodeValue_first_byte v
  rw [he] at hlen ⊢
  rw [isOneEncoding_cons, hb]
  exact hlen

theorem setWidth_byteOf_zero {v : U64} (hc : classOf v = .c1) : (byteOf v 0).setWidth 64 = v := by
  have hv := (classIntervals v).1.mp hc
  apply BitVec.eq_of_toNat_eq
  rw [BitVec.toNat_setWidth, byteOf_toNat]
  omega

theorem encodedValue_of_encodeValue {v : U64} {b : Byte} {p : List Byte} (he : encodeValue v = b :: p)
    (hb : classOfDisc b = classOf v) : encodedValue b p = v := by
  rw [encodedValue, hb]
  split_ifs with hc
  · rw [encodeValue_of_classOf hc] at he
    exact (List.cons.inj he).1 ▸ setWidth_byteOf_zero hc
  · have hp : fromLE p = v.toNat := by simpa [he] using fromLE_tail_encodeValue hc
    rw [hp, BitVec.ofNat_toNat, BitVec.setWidth_eq]

/-- Decoding the encoding of a value gives the value and the length of the encoding (R75, R76). -/
theorem decodeSeq_encodeValue (v : U64) : decodeSeq (encodeValue v) = .ok v (encodeValue v).length := by
  have hone := isOneEncoding_encodeValue v
  obtain ⟨b, p, he, hb⟩ := encodeValue_first_byte v
  rw [he] at hone ⊢
  rw [decodeSeq_of_isOneEncoding hone, encodedValue_of_encodeValue he hb]

theorem encodeValue_injective {v w : U64} (h : encodeValue v = encodeValue w) : v = w := by
  have hv := decodeSeq_encodeValue v
  rw [h, decodeSeq_encodeValue w] at hv
  exact (DecResult.ok.inj hv).1.symm

/-- The payload of an encoding is its value, which lies in the interval of the class that the first byte announces, so
never below it (R39, R54). -/
theorem isNonCanonical_encodeValue (v : U64) : isNonCanonical (encodeValue v) = false := by
  obtain ⟨-, h3, h5, h9⟩ := classIntervals v
  obtain ⟨b, p, he, hb⟩ := encodeValue_first_byte v
  have hp : classOf v ≠ .c1 → fromLE p = v.toNat := fun hc => by simpa [he] using fromLE_tail_encodeValue hc
  rw [he, ← Bool.not_eq_true, isNonCanonical_cons, hb]
  rintro ⟨-, ⟨hc, hlow⟩ | ⟨hc, hlow⟩ | ⟨hc, hlow⟩⟩ <;> rw [hp (by simp [hc])] at hlow
  · exact absurd (h3.mp hc).1 (by omega)
  · exact absurd (h5.mp hc).1 (by omega)
  · exact absurd (h9.mp hc).1 (by omega)

/-! ## The statements -/

/-- Settles O12: the range of the operand gives its class, and the class gives the ports and the bytes. -/
theorem encResult : Obligations.EncResult := by
  intro v s
  have hv := v.isLt
  obtain ⟨h1, h3, h5, h9⟩ := classIntervals v
  refine ⟨fun h => ?_, fun hl hu => ?_, fun hl hu => ?_, fun h => ?_⟩
  · have hc := h1.mpr h
    exact exec_enc_of_classOf hc (encoderData_of_c1 hc) s
  · have hc := h3.mpr ⟨hl, hu⟩
    exact exec_enc_of_classOf hc (encoderData_of_c3 hc) s
  · have hc := h5.mpr ⟨hl, hu⟩
    exact exec_enc_of_classOf hc (encoderData_of_c5 hc) s
  · have hc := h9.mpr ⟨h, by omega⟩
    exact exec_enc_of_classOf hc (encoderData_of_c9 hc) s

/-- Settles O15: the lanes carry the bytes of ENC(v) and then zeros, and each class has its 72-bit form. -/
theorem encoderPortBinding : Obligations.EncoderPortBinding :=
  fun v => ⟨encoderUnit_len v, rfl, fun _ hi => encodeValue_getElem? v hi,
    fun _ hi h8 => lane_encoderData_of_len_le v hi (by omega), encoderData_of_c1, encoderData_of_c3, encoderData_of_c5,
    encoderData_of_c9⟩

/-- Settles O44: the payload is the value, which is never below its class, and DEC reads the value back. -/
theorem encNeverNonCanonical : Obligations.EncNeverNonCanonical :=
  fun v => ⟨isNonCanonical_encodeValue v, fromLE_tail_encodeValue, fun _ => encodeValue_injective⟩

/-- Settles O16: ENC answers the bytes of its operand, which are evaluated for each of the seven. -/
theorem encBoundaryValues : Obligations.EncBoundaryValues := by
  intro s
  refine ⟨?_, ?_, ?_, ?_, ?_, ?_, ?_⟩ <;> exact exec_enc_of_encodeValue (by decide) s

end Sys2Proof.Machine
end

section
/-! PROOF. The statements of 41_decode.md: when DEC is truncated and what it consumes, the next state of DEC on success
and on TruncatedInput, and a non-canonical encoding on the ports. -/

namespace Sys2Proof.Machine

/-! ## DEC of a sequence -/

theorem decodeSeq_cons_eq_truncated_iff {b : Byte} {p : List Byte} :
    decodeSeq (b :: p) = .err .truncatedInput ↔ p.length + 1 < lenOf (classOfDisc b) := by
  rw [decodeSeq_cons]
  split_ifs with h <;> simp [h]

/-- The first bytes that announce more than the `n + 1` bytes at hand (R31, R33). -/
theorem lt_lenOf_classOfDisc_iff (b : Byte) (n : Nat) :
    n + 1 < lenOf (classOfDisc b) ↔ (b = 0xFD ∧ n + 1 < 3) ∨ (b = 0xFE ∧ n + 1 < 5) ∨ (b = 0xFF ∧ n + 1 < 9) := by
  rcases classOfDisc_spec b with ⟨hc, hb⟩ | ⟨hc, rfl⟩ | ⟨hc, rfl⟩ | ⟨hc, rfl⟩
  · have hne : b ≠ 0xFD#8 ∧ b ≠ 0xFE#8 ∧ b ≠ 0xFF#8 := by
      refine ⟨?_, ?_, ?_⟩ <;> rintro rfl <;> exact absurd hb (by decide)
    simp [hc, hne, lenOf]
  all_goals simp [lenOf]

/-- A successful DEC consumes what the first byte announces (R62). -/
theorem consumed_eq_of_decodeSeq_cons {b : Byte} {p : List Byte} {v : U64} {n : Nat}
    (h : decodeSeq (b :: p) = .ok v n) : n = lenOf (classOfDisc b) := by
  rw [decodeSeq_cons] at h
  split_ifs at h <;> exact (DecResult.ok.inj h).2.symm

/-- As many bytes as the first byte announces are one encoding (R37). -/
theorem isOneEncoding_take {b : Byte} {p : List Byte} (h : lenOf (classOfDisc b) ≤ (b :: p).length) :
    IsOneEncoding ((b :: p).take (lenOf (classOfDisc b))) := by
  have hpos := lenOf_pos (classOfDisc b)
  have hlen : ((b :: p).take (lenOf (classOfDisc b))).length = lenOf (classOfDisc b) := List.length_take_of_le h
  rw [List.take_cons hpos] at hlen ⊢
  exact isOneEncoding_cons.mpr hlen

theorem decodeSeq_append_of_isOneEncoding {s : List Byte} (h : IsOneEncoding s) (rest : List Byte) :
    decodeSeq (s ++ rest) = decodeSeq s := by
  cases s with
  | nil => exact h.elim
  | cons b p => rw [decodeSeq_append h, decodeSeq_of_isOneEncoding h]

/-! ## The next state of DEC -/

section
variable {data : Window} {avail : Count}

theorem decoderValue_of_c1 (h : classOfDisc (lane data 0) = .c1) :
    decoderValue data = (data.extractLsb' 0 8).setWidth 64 := by
  rw [decoderValue, h]

theorem decoderValue_of_c3 (h : classOfDisc (lane data 0) = .c3) :
    decoderValue data = (data.extractLsb' 8 16).setWidth 64 := by
  rw [decoderValue, h]

theorem decoderValue_of_c5 (h : classOfDisc (lane data 0) = .c5) :
    decoderValue data = (data.extractLsb' 8 32).setWidth 64 := by
  rw [decoderValue, h]

theorem decoderValue_of_c9 (h : classOfDisc (lane data 0) = .c9) : decoderValue data = data.extractLsb' 8 64 := by
  rw [decoderValue, h]

/-- With the announced bytes available DEC drives and reads the value and the announced length (R65). -/
theorem exec_dec_of_announced_le (h : announced data ≤ avail.toNat) (s : State) :
    exec (.dec data avail) s = .next { s with
      dec := some ⟨data, avail, decoderValue data, BitVec.ofNat 4 (announced data), 0⟩
      observed := s.observed ++ [(.dec data avail, .decoded (decoderValue data) (announced data))] } := by
  rcases readDecoded_decoderUnit data avail with ⟨_, hread⟩ | ⟨hlt, _⟩
  · rw [exec_dec, useDecoder, hread, driveDecoder, decoderUnit_of_announced_le h]
    rfl
  · exact absurd h (not_le.mpr hlt)

/-- With fewer bytes available than announced DEC drives zeros and reads TruncatedInput (R66). -/
theorem exec_dec_of_lt_announced (h : avail.toNat < announced data) (s : State) :
    exec (.dec data avail) s = .next { s with
      dec := some ⟨data, avail, 0, 0, 1⟩
      observed := s.observed ++ [(.dec data avail, .failed .truncatedInput)] } := by
  rcases decoderUnit_cases data avail with ⟨_, hle, _⟩ | ⟨_, hunit⟩
  · exact absurd h (not_lt.mpr hle)
  · rw [exec_dec, useDecoder, driveDecoder, hunit]
    rfl

/-- The success of DEC by the class `c` that lane 0 announces (R65). -/
theorem exec_dec_of_classOfDisc {c : LenClass} {v : U64} (hc : classOfDisc (lane data 0) = c)
    (hv : decoderValue data = v) (havail : lenOf c ≤ avail.toNat) (s : State) :
    exec (.dec data avail) s = .next { s with
      dec := some ⟨data, avail, v, BitVec.ofNat 4 (lenOf c), 0⟩
      observed := s.observed ++ [(.dec data avail, .decoded v (lenOf c))] } := by
  subst hc hv
  exact exec_dec_of_announced_le havail s

end

/-- DEC of one encoding bound to the ports, whatever the other lanes hold: its value and its whole length (R23, R65). -/
theorem exec_dec_of_isOneEncoding {b : Byte} {p : List Byte} (h : IsOneEncoding (b :: p)) (filler : Window)
    (s : State) :
    exec (.dec (bindLanes (b :: p) filler) (bindAvail (b :: p))) s = .next { s with
      dec := some ⟨bindLanes (b :: p) filler, bindAvail (b :: p), encodedValue b p,
        BitVec.ofNat 4 (b :: p).length, 0⟩
      observed := s.observed ++ [(.dec (bindLanes (b :: p) filler) (bindAvail (b :: p)),
        .decoded (encodedValue b p) (b :: p).length)] } := by
  have hlen := h.length_le
  have havail : announced (bindLanes (b :: p) filler) ≤ (bindAvail (b :: p)).toNat := by
    rw [announced_bindLanes h, bindAvail_toNat]; omega
  rw [exec_dec_of_announced_le havail, announced_bindLanes h, decoderValue_bindLanes h]

/-- A non-canonical encoding is one encoding of F3, F5 or F9, and its value is its payload (R36, R39). -/
theorem encodedValue_of_isNonCanonical {b : Byte} {p : List Byte} (h : isNonCanonical (b :: p) = true) :
    IsOneEncoding (b :: p) ∧ encodedValue b p = BitVec.ofNat 64 (fromLE p) ∧ fromLE p < 2 ^ 64 := by
  obtain ⟨hone, hlow⟩ := (isNonCanonical_cons b p).mp h
  have hc : classOfDisc b ≠ .c1 := by
    rcases hlow with ⟨hc, _⟩ | ⟨hc, _⟩ | ⟨hc, _⟩ <;> simp [hc]
  exact ⟨hone, if_neg hc, by omega⟩

/-! ## The statements -/

/-- Settles O29: DEC reads one encoding without asking whether a shorter one exists. -/
theorem nonCanonicalIsAccepted : Obligations.NonCanonicalIsAccepted := by
  intro b p filler st h
  obtain ⟨hone, hvalue, hfits⟩ := encodedValue_of_isNonCanonical h
  have hlen := hone.length_le
  refine ⟨_, _, exec_dec_of_isOneEncoding hone filler st, rfl, rfl, ?_, ?_, ?_⟩
  · rw [hvalue, BitVec.toNat_ofNat, Nat.mod_eq_of_lt hfits]
  · rw [BitVec.toNat_ofNat, Nat.mod_eq_of_lt (by omega)]
  · simp [lastResponse, hvalue]

/-- Settles O18: lane 0 gives the class, and the class gives the value slice and the count. -/
theorem decSuccessResult : Obligations.DecSuccessResult := by
  intro data avail s
  refine ⟨fun hb h => ?_, fun hb h => ?_, fun hb h => ?_, fun hb h => ?_⟩
  · have hc := classOfDisc_of_lt hb
    exact exec_dec_of_classOfDisc hc (decoderValue_of_c1 hc) h s
  · have hc : classOfDisc (lane data 0) = .c3 := hb ▸ classOfDisc_fd
    exact exec_dec_of_classOfDisc hc (decoderValue_of_c3 hc) h s
  · have hc : classOfDisc (lane data 0) = .c5 := hb ▸ classOfDisc_fe
    exact exec_dec_of_classOfDisc hc (decoderValue_of_c5 hc) h s
  · have hc : classOfDisc (lane data 0) = .c9 := hb ▸ classOfDisc_ff
    exact exec_dec_of_classOfDisc hc (decoderValue_of_c9 hc) h s

/-- Settles O19: every first byte announces at least one byte, so an empty input is one that is too short. -/
theorem decTruncatedResult : Obligations.DecTruncatedResult := by
  intro data avail s h
  have hshort : avail.toNat < announced data := by
    rcases h with rfl | hlt
    · exact announced_pos data
    · exact hlt
  exact exec_dec_of_lt_announced hshort s

/-- Settles O23: a first byte below 0xFD announces no more than itself. -/
theorem truncatedExactlyWhenTooShort : Obligations.TruncatedExactlyWhenTooShort := by
  intro s
  cases s with
  | nil => exact ⟨iff_of_true rfl (.inl rfl), nofun⟩
  | cons b p =>
    refine ⟨?_, fun c hhead hlow htrunc => ?_⟩
    · rw [decodeSeq_cons_eq_truncated_iff, lt_lenOf_classOfDisc_iff b p.length]
      simp
    · obtain rfl := Option.some.inj hhead
      rw [decodeSeq_cons_eq_truncated_iff, classOfDisc_of_lt hlow, lenOf] at htrunc
      omega

/-- Settles O24: what was decoded has a first byte, and the count is the length of its class. -/
theorem consumedIsTheAnnouncedLength : Obligations.ConsumedIsTheAnnouncedLength := by
  intro s v n h
  cases s with
  | nil => cases h
  | cons b p =>
    obtain rfl := consumed_eq_of_decodeSeq_cons h
    exact ⟨⟨b, rfl, rfl⟩, lenOf_cases _⟩

/-- Settles O25: the announced bytes are one encoding, after which DEC reads nothing. -/
theorem trailingBytesAreIgnored : Obligations.TrailingBytesAreIgnored := by
  intro b p h
  have hdec := decodeSeq_append_of_isOneEncoding (isOneEncoding_take h) ((b :: p).drop (lenOf (classOfDisc b)))
  rwa [List.take_append_drop] at hdec

end Sys2Proof.Machine
end

section
/-! PROOF. The statements of 42_size_of.md: the next state of SIZE, and the ports and the length that it has in common
with ENC. -/

namespace Sys2Proof.Machine

/-- SIZE drives the encoder unit for its operand and reads the length of the operand's class (R70). -/
theorem exec_size_eq_record (v : U64) (s : State) :
    exec (.size v) s = .next (record (.size v) (.length (encodedLength v)) (driveEncoder v s)) :=
  exec_of_encoder (.inr rfl) s

theorem encodedLength_of_classOf {v : U64} {c : LenClass} (h : classOf v = c) : encodedLength v = lenOf c :=
  congrArg lenOf h

/-! ## The statements -/

/-- Settles O13: the range of the operand gives its class, and the class gives the length. -/
theorem sizeResult : Obligations.SizeResult := by
  intro v s
  have hv := v.isLt
  obtain ⟨h1, h3, h5, h9⟩ := classIntervals v
  refine ⟨encodedLength v, exec_size_eq_record v s, fun h => ?_, fun hl hu => ?_, fun hl hu => ?_, fun h => ?_⟩
  · exact encodedLength_of_classOf (h1.mpr h)
  · exact encodedLength_of_classOf (h3.mpr ⟨hl, hu⟩)
  · exact encodedLength_of_classOf (h5.mpr ⟨hl, hu⟩)
  · exact encodedLength_of_classOf (h9.mpr ⟨h, by omega⟩)

/-- Settles O14: both drive the encoder unit for the value, and the bytes of ENC are as many as SIZE reads. -/
theorem sizeReadsTheEncodersLength : Obligations.SizeReadsTheEncodersLength := by
  intro v s
  refine ⟨_, _, encodeValue v, exec_enc_of_encodeValue rfl s, exec_size_eq_record v s, rfl, ?_, ?_⟩
  · rw [lastResponse_record]
  · rw [lastResponse_record, encodeValue_length]

end Sys2Proof.Machine
end

section
/-! PROOF. The statements of 43_codec_laws.md: what a successful DEC read, that an encoding is determined by its value and
its length, that the port level answers DEC of a bound sequence, and the host's reads of a stream. -/

namespace Sys2Proof.Machine

/-! ## What a successful DEC read -/

/-- A successful DEC read one encoding, the first `n` bytes of its input (R60, R62). -/
theorem exists_encoding_of_decodeSeq {s : List Byte} {v : U64} {n : Nat} (h : decodeSeq s = .ok v n) :
    ∃ b p, s.take n = b :: p ∧ IsOneEncoding (b :: p) ∧ v = encodedValue b p ∧ n = (b :: p).length := by
  cases s with
  | nil => cases h
  | cons b p =>
    obtain rfl := consumed_eq_of_decodeSeq_cons h
    have hlen : lenOf (classOfDisc b) ≤ (b :: p).length := by
      by_contra hshort
      rw [decodeSeq_cons_eq_truncated_iff.mpr (not_le.mp hshort)] at h
      cases h
    have hone := isOneEncoding_take hlen
    have htake : (b :: p).take (lenOf (classOfDisc b)) = b :: p.take (lenOf (classOfDisc b) - 1) :=
      List.take_cons (lenOf_pos _)
    have hdec := decodeSeq_append_of_isOneEncoding hone ((b :: p).drop (lenOf (classOfDisc b)))
    rw [List.take_append_drop, h, htake] at hdec
    rw [htake] at hone
    obtain ⟨hv, hn⟩ := DecResult.ok.inj (hdec.trans (decodeSeq_of_isOneEncoding hone))
    exact ⟨b, _, htake, hone, hv, hn⟩

/-- The bytes that a successful DEC read decode alone to the same value and count. -/
theorem decodeSeq_take_consumed {s : List Byte} {v : U64} {n : Nat} (h : decodeSeq s = .ok v n) :
    decodeSeq (s.take n) = .ok v n := by
  obtain ⟨b, p, htake, hone, rfl, rfl⟩ := exists_encoding_of_decodeSeq h
  rw [htake, decodeSeq_of_isOneEncoding hone]

/-! ## An encoding is determined by its value and its length -/

theorem lenOf_injective : Function.Injective lenOf := by
  intro c d
  cases c <;> cases d <;> simp [lenOf]

/-- A first byte that is no value byte is the discriminator of the class it announces (R32, R33). -/
theorem disc_classOfDisc {b : Byte} (hc : classOfDisc b ≠ .c1) : disc (classOfDisc b) = some b := by
  rcases classOfDisc_spec b with ⟨h, _⟩ | ⟨_, rfl⟩ | ⟨_, rfl⟩ | ⟨_, rfl⟩
  · exact absurd h hc
  all_goals rfl

/-- The value of one encoding is the number that its value byte or its payload is: no payload is too long for 64 bits. -/
theorem encodedValue_toNat {b : Byte} {p : List Byte} (h : IsOneEncoding (b :: p)) :
    (encodedValue b p).toNat = if classOfDisc b = .c1 then b.toNat else fromLE p := by
  have hb := b.isLt
  have hp : p.length ≤ 8 := Nat.le_of_succ_le_succ h.length_le
  have hfits : fromLE p < 2 ^ 64 := (fromLE_lt p).trans_le (Nat.pow_le_pow_right (by decide : 0 < 256) hp)
  unfold encodedValue
  split_ifs
  · rw [BitVec.toNat_setWidth]; omega
  · rw [BitVec.toNat_ofNat, Nat.mod_eq_of_lt hfits]

theorem encoding_injective {b c : Byte} {p q : List Byte} (hp : IsOneEncoding (b :: p)) (hq : IsOneEncoding (c :: q))
    (hlen : (b :: p).length = (c :: q).length) (hval : encodedValue b p = encodedValue c q) : b :: p = c :: q := by
  have hclass : classOfDisc b = classOfDisc c := lenOf_injective (hp.symm.trans (hlen.trans hq))
  have hnat := congrArg BitVec.toNat hval
  rw [encodedValue_toNat hp, encodedValue_toNat hq, ← hclass] at hnat
  split_ifs at hnat with hc
  · have hnil : p.length = 0 ∧ q.length = 0 := by
      rw [isOneEncoding_cons, hc, lenOf] at hp
      rw [isOneEncoding_cons, ← hclass, hc, lenOf] at hq
      omega
    rw [BitVec.eq_of_toNat_eq hnat, List.length_eq_zero_iff.mp hnil.1, List.length_eq_zero_iff.mp hnil.2]
  · have hbc : some b = some c := by
      rw [← disc_classOfDisc hc, hclass, disc_classOfDisc (hclass ▸ hc)]
    rw [Option.some.inj hbc, fromLE_injective p q (Nat.succ.inj hlen) hnat]

/-! ## Minimality -/

/-- A value that fits a payload of two, four or eight bytes needs no longer format (R30, R31). -/
theorem encodedLength_le_of_fits {v : U64} {k : Nat} (hk : k = 2 ∨ k = 4 ∨ k = 8) (hv : v.toNat < 256 ^ k) :
    encodedLength v ≤ k + 1 := by
  rcases classOf_spec v with ⟨hc, h⟩ | ⟨hc, h⟩ | ⟨hc, h⟩ | ⟨hc, h⟩ <;>
    rw [encodedLength_of_classOf hc, lenOf] <;> rcases hk with rfl | rfl | rfl <;> omega

theorem encodedLength_encodedValue_le {b : Byte} {p : List Byte} (h : IsOneEncoding (b :: p)) :
    encodedLength (encodedValue b p) ≤ (b :: p).length := by
  have hval := encodedValue_toNat h
  rcases (isOneEncoding_iff_length b p).mp h with ⟨hb, -⟩ | hwide
  · rw [if_pos (classOfDisc_of_lt hb)] at hval
    have hclass : classOf (encodedValue b p) = .c1 := (classIntervals _).1.mpr (by omega)
    rw [encodedLength_of_classOf hclass]
    exact Nat.le_add_left 1 p.length
  · have hc : classOfDisc b ≠ .c1 := by
      rcases hwide with ⟨rfl, -⟩ | ⟨rfl, -⟩ | ⟨rfl, -⟩ <;> decide
    have hk : p.length = 2 ∨ p.length = 4 ∨ p.length = 8 := hwide.imp And.right (.imp And.right And.right)
    rw [if_neg hc] at hval
    exact encodedLength_le_of_fits hk (hval.trans_lt (fromLE_lt p))

theorem encodedLength_le_consumed {s : List Byte} {v : U64} {n : Nat} (h : decodeSeq s = .ok v n) :
    encodedLength v ≤ n := by
  obtain ⟨b, p, -, hone, rfl, rfl⟩ := exists_encoding_of_decodeSeq h
  exact encodedLength_encodedValue_le hone

/-- Of the encodings of a value only the one that ENC writes is as short as SIZE says (R79). -/
theorem consumed_eq_encodedLength_iff {s : List Byte} {v : U64} {n : Nat} (h : decodeSeq s = .ok v n) :
    n = encodedLength v ↔ s.take n = encodeValue v := by
  obtain ⟨b, p, htake, hone, hv, hn⟩ := exists_encoding_of_decodeSeq h
  rw [htake, ← encodeValue_length, hn]
  refine ⟨fun hlen => ?_, congrArg List.length⟩
  have henc := isOneEncoding_encodeValue v
  obtain ⟨c, q, he, hc⟩ := encodeValue_first_byte v
  rw [he] at henc hlen ⊢
  exact encoding_injective hone henc hlen (hv.symm.trans (encodedValue_of_encodeValue he hc).symm)

/-! ## Canonical encodings -/

theorem isCanonical_iff {s : List Byte} {v : U64} {n : Nat} (h : decodeSeq s = .ok v n) :
    isCanonical s = true ↔ encodeValue v = s := by
  rw [isCanonical, h]
  exact decide_eq_true_iff

/-- A non-canonical encoding is longer than the one that ENC writes (R81). -/
theorem encodeValue_length_lt_of_isNonCanonical {s : List Byte} {v : U64} {n : Nat} (h : decodeSeq s = .ok v n)
    (hnon : isNonCanonical (s.take n) = true) : (encodeValue v).length < n := by
  rw [encodeValue_length]
  refine lt_of_le_of_ne (encodedLength_le_consumed h) fun heq => ?_
  rw [(consumed_eq_encodedLength_iff h).mp heq.symm, isNonCanonical_encodeValue] at hnon
  cases hnon

theorem decodeSeq_encodeValue_append (v : U64) (t : List Byte) :
    decodeSeq (encodeValue v ++ t) = .ok v (encodeValue v).length := by
  rw [decodeSeq_append_of_isOneEncoding (isOneEncoding_encodeValue v), decodeSeq_encodeValue]

/-! ## The decoder unit on a bound sequence -/

/-- DEC looks at nine bytes at most, which is what the lanes carry (R22, R31). -/
theorem decodeSeq_take_nine (s : List Byte) : decodeSeq (s.take 9) = decodeSeq s := by
  cases s with
  | nil => rfl
  | cons b p =>
    have hle : lenOf (classOfDisc b) ≤ 9 := lenOf_le_laneCount _
    have hshort : (p.take 8).length + 1 < lenOf (classOfDisc b) ↔ p.length + 1 < lenOf (classOfDisc b) := by
      rw [List.length_take]; omega
    have hpayload : slice (b :: p.take 8) 1 (lenOf (classOfDisc b)) = slice (b :: p) 1 (lenOf (classOfDisc b)) := by
      rw [slice_cons _ _ _ (lenOf_pos _), slice_cons _ _ _ (lenOf_pos _), List.take_take, min_eq_left (by omega)]
    simp only [List.take_succ_cons, decodeSeq_cons, hshort, hpayload]

/-- What the host reads of DEC on any sequence bound to the ports, whatever the other lanes hold (R23, R82). -/
theorem responseOf_dec_bind (s : List Byte) (filler : Window) :
    responseOf (.dec (bindLanes s filler) (bindAvail s)) = (decodeSeq s).toResponse := by
  rw [responseOf, boundSeq_bind, decodeSeq_take_nine]

theorem readDecoded_bind (s : List Byte) (filler : Window) :
    readDecoded (decoderUnit (bindLanes s filler) (bindAvail s)) = (decodeSeq s).toResponse :=
  (readDecoded_eq_decodeSeq _ _).trans (responseOf_dec_bind s filler)

theorem decodeSeq_cases (s : List Byte) :
    (∃ v n, decodeSeq s = .ok v n) ∨ decodeSeq s = .err .truncatedInput := by
  cases s with
  | nil => exact .inr rfl
  | cons b p =>
    rw [decodeSeq_cons]
    split_ifs
    · exact .inr rfl
    all_goals exact .inl ⟨_, _, rfl⟩

section
variable {data : Window} {avail : Count}

/-- The ports behind a successful response (R42, R65). -/
theorem decoderUnit_of_readDecoded_eq_decoded {v : U64} {n : Nat}
    (h : readDecoded (decoderUnit data avail) = .decoded v n) :
    (decoderUnit data avail).decStatus = 0 ∧ (decoderUnit data avail).decValue = v ∧
      (decoderUnit data avail).decConsumed.toNat = n := by
  rcases decoderUnit_cases data avail with ⟨_, _, hd⟩ | ⟨_, hd⟩ <;> rw [hd] at h ⊢
  · obtain ⟨hv, hn⟩ := Response.decoded.inj h
    exact ⟨rfl, hv, hn⟩
  · cases h

/-- The status behind an error response (R42, R66). -/
theorem decoderUnit_status_of_readDecoded_eq_failed {k : ErrKind}
    (h : readDecoded (decoderUnit data avail) = .failed k) : (decoderUnit data avail).decStatus = 1 := by
  rcases decoderUnit_cases data avail with ⟨_, _, hd⟩ | ⟨_, hd⟩ <;> rw [hd] at h ⊢
  cases h

end

/-! ## The host's stream -/

/-- A read of the stream answers DEC of the rest of it, and the cursor follows that response (R105). -/
theorem turn_answers (filler : Window) (c : Caller) (s : State) :
    ∃ t, c.turn filler s = .next (c.advance (some (decodeSeq c.rest).toResponse), t) ∧
      lastResponse t = some (decodeSeq c.rest).toResponse := by
  obtain ⟨t, ht, hr⟩ := exec_lastResponse (c.request filler) (release s)
  rw [Caller.request, responseOf_dec_bind] at hr
  exact ⟨t, by rw [Caller.turn, ht, ← hr], hr⟩

theorem turns_succ {filler : Window} {k : Nat} {c c' c'' : Caller} {s t u : State} {rs : List (Option Response)}
    (h : c.turn filler s = .next (c', t)) (hrest : Caller.turns filler k c' t = .next (c'', u, rs)) :
    Caller.turns filler (k + 1) c s = .next (c'', u, lastResponse t :: rs) := by
  simp only [Caller.turns, h, hrest]

/-- One read where the encoding of `v` begins (R80, R105). -/
theorem turn_of_rest_eq_append {c : Caller} {v : U64} {t : List Byte} (h : c.rest = encodeValue v ++ t)
    (filler : Window) (s : State) :
    ∃ u, c.turn filler s = .next (⟨c.buf, c.cur + (encodeValue v).length⟩, u) ∧
      lastResponse u = some (.decoded v (encodedLength v)) := by
  obtain ⟨u, hu, hr⟩ := turn_answers filler c s
  rw [h, decodeSeq_encodeValue_append] at hu hr
  exact ⟨u, hu, encodeValue_length v ▸ hr⟩

/-- The rest of the stream after the cursor moved over the bytes that it began with. -/
theorem rest_advanced {c : Caller} {x y : List Byte} (h : c.rest = x ++ y) :
    Caller.rest ⟨c.buf, c.cur + x.length⟩ = y := by
  have hdrop := congrArg (List.drop x.length) h
  rwa [Caller.rest, List.drop_drop, List.drop_left] at hdrop

/-- As many reads as the rest of the stream begins with encodings give their values back in order. -/
theorem turns_of_rest_eq_flatMap (filler : Window) (after : List Byte) (vals : List U64) (c : Caller) (s : State)
    (h : c.rest = vals.flatMap encodeValue ++ after) :
    ∃ t, Caller.turns filler vals.length c s =
      .next (⟨c.buf, c.cur + (vals.flatMap encodeValue).length⟩, t,
        vals.map fun v => some (.decoded v (encodedLength v))) := by
  induction vals generalizing c s with
  | nil => exact ⟨s, rfl⟩
  | cons v vals ih =>
    rw [List.flatMap_cons, List.append_assoc] at h
    obtain ⟨u, hu, hr⟩ := turn_of_rest_eq_append h filler s
    obtain ⟨t, ht⟩ := ih _ u (rest_advanced h)
    refine ⟨t, ?_⟩
    rw [List.length_cons, turns_succ hu ht, hr, List.flatMap_cons, List.length_append, List.map_cons, Nat.add_assoc]

/-! ## The statements -/

/-- Settles O41: an encoding holds its value, so its format is no shorter than the value's class, and in that format
value and length determine the bytes. -/
theorem encIsMinimal : Obligations.EncIsMinimal :=
  fun _ _ _ h => ⟨encodedLength_le_consumed h, consumed_eq_encodedLength_iff h⟩

/-- Settles O43: the bytes read decode alone to the same value, so they are canonical when ENC writes them, which is when
they are as many as SIZE says. -/
theorem reencodeLaw : Obligations.ReencodeLaw := by
  refine ⟨fun s v n h => ⟨?_, ?_, encodeValue_length_lt_of_isNonCanonical h⟩, ?_, ?_, ?_, ?_⟩
  · exact (isCanonical_iff (decodeSeq_take_consumed h)).symm
  · exact eq_comm.trans ((consumed_eq_encodedLength_iff h).symm.trans eq_comm)
  all_goals rfl

/-- Settles O45: each unit's ports carry the transaction level's response, and a response tells the status it was read
on. -/
theorem levelAgreement : Obligations.LevelAgreement := by
  refine ⟨fun v => ⟨?_, encoderUnit_len v⟩, fun s filler => ?_⟩
  · rw [encoderUnit_len]
    exact lanes_encoderData v
  · have hread := readDecoded_bind s filler
    rcases decodeSeq_cases s with ⟨v, n, h⟩ | h <;> rw [h] at hread
    · obtain ⟨hstatus, hvalue, hcount⟩ := decoderUnit_of_readDecoded_eq_decoded hread
      simp [h, hstatus, hvalue, hcount]
    · simp [h, decoderUnit_status_of_readDecoded_eq_failed hread]

/-- Settles O48, by induction on the list of values: each read finds the cursor where the next encoding begins. -/
theorem streamIsReadBack : Obligations.StreamIsReadBack := by
  intro vals before after filler s
  refine turns_of_rest_eq_flatMap filler after vals _ s ?_
  rw [Caller.rest, List.append_assoc, List.drop_left]

/-- Settles O40: DEC reads the value back from ENC(v), and what is canonical is what ENC writes for the value it decodes
to. -/
theorem canonicalEncodingIsUnique : Obligations.CanonicalEncodingIsUnique := by
  refine ⟨fun v w => encodeValue_injective, fun v s => ⟨fun ⟨hcanon, n, h⟩ => ?_, fun hs => ?_⟩⟩
  · exact ((isCanonical_iff h).mp hcanon).symm
  · subst hs
    exact ⟨(isCanonical_iff (decodeSeq_encodeValue v)).mpr rfl, _, decodeSeq_encodeValue v⟩

/-- Settles O42: ENC(v) is one encoding, after which DEC reads nothing. -/
theorem prefixLaw : Obligations.PrefixLaw := decodeSeq_encodeValue_append

/-- Settles O38: ENC(v) is one encoding, whose value byte or payload is `v`. -/
theorem roundTripValueAndCount : Obligations.RoundTripValueAndCount := decodeSeq_encodeValue

/-- Settles O39: all four are the length of the class of `v`. -/
theorem lengthAgreement : Obligations.LengthAgreement :=
  fun v => ⟨(encodeValue_length v).symm, ⟨v, encodeValue_length v ▸ decodeSeq_encodeValue v⟩, encoderUnit_len v⟩

/-- Settles O5: every instruction is a use of one unit, which answers the transaction level's response. -/
theorem execAnswersTheTransactionLevel : Obligations.ExecAnswersTheTransactionLevel := exec_answers

end Sys2Proof.Machine
end

section
/-! PROOF. The statements of 60_exceptions.md: every operation completes, which responses there are, several instances,
and the count of one operation. -/

namespace Sys2Proof.Machine

/-! ## The responses of an instruction -/

/-- The one encoding of a well-formed wire-format instruction is decoded whole (R60, R61). -/
theorem responseOf_wire_of_wellFormed {i : Instr} {bytes : List Byte} (hi : i.wellFormed = true)
    (h : encode i = .decoder (.wire bytes)) : ∃ v, responseOf i = .decoded v bytes.length := by
  obtain ⟨v, hv⟩ := (isOneEncoding_iff_decodeSeq bytes).mpr (isOneEncoding_of_decodeWire (decodeWire_of_encode hi h))
  exact ⟨v, by rw [responseOf_of_wire h, hv]; rfl⟩

/-- DEC of any sequence succeeds or raises TruncatedInput (R61, R86). -/
theorem toResponse_decodeSeq_cases (s : List Byte) :
    (∃ v n, (decodeSeq s).toResponse = .decoded v n) ∨ (decodeSeq s).toResponse = .failed .truncatedInput := by
  rcases decodeSeq_cases s with ⟨v, n, h⟩ | h <;> rw [h]
  · exact .inl ⟨v, n, rfl⟩
  · exact .inr rfl

/-- An instruction succeeds or answers TruncatedInput (R85 to R87). -/
theorem responseOf_cases (i : Instr) :
    (∃ bytes, responseOf i = .encoded bytes) ∨ (∃ n, responseOf i = .length n) ∨ (∃ v n, responseOf i = .decoded v n) ∨
      responseOf i = .failed .truncatedInput := by
  cases i with
  | f1 b => exact .inr (.inr (toResponse_decodeSeq_cases (f1Bytes b)))
  | f3 p => exact .inr (.inr (toResponse_decodeSeq_cases (f3Bytes p)))
  | f5 p => exact .inr (.inr (toResponse_decodeSeq_cases (f5Bytes p)))
  | f9 p => exact .inr (.inr (toResponse_decodeSeq_cases (f9Bytes p)))
  | enc v => exact .inl ⟨_, rfl⟩
  | dec data avail => exact .inr (.inr (toResponse_decodeSeq_cases (boundSeq data avail)))
  | size v => exact .inr (.inl ⟨_, rfl⟩)

theorem responseOf_ne_failed_invalidRange (i : Instr) : responseOf i ≠ .failed .invalidRange := by
  rcases responseOf_cases i with ⟨_, h⟩ | ⟨_, h⟩ | ⟨_, _, h⟩ | h <;> simp [h]

theorem responseOf_ne_reservedStatus (i : Instr) : responseOf i ≠ .reservedStatus := by
  rcases responseOf_cases i with ⟨_, h⟩ | ⟨_, h⟩ | ⟨_, _, h⟩ | h <;> simp [h]

theorem wellFormed_eq_false_of_wire_of_truncated {i : Instr} {bytes : List Byte} (h : encode i = .decoder (.wire bytes))
    (hr : responseOf i = .failed .truncatedInput) : i.wellFormed = false := by
  by_contra hi
  obtain ⟨v, hv⟩ := responseOf_wire_of_wellFormed (eq_true_of_ne_false hi) h
  cases hv.symm.trans hr

/-- TruncatedInput is the answer of DEC, or of a term that is no instruction of the block (R86). -/
theorem eq_dec_or_not_wellFormed_of_truncated {i : Instr} (hr : responseOf i = .failed .truncatedInput) :
    ∃ data avail, i = .dec data avail ∨ i.wellFormed = false := by
  cases i with
  | f1 b => exact ⟨0, 0, .inr (wellFormed_eq_false_of_wire_of_truncated rfl hr)⟩
  | f3 p => exact ⟨0, 0, .inr (wellFormed_eq_false_of_wire_of_truncated rfl hr)⟩
  | f5 p => exact ⟨0, 0, .inr (wellFormed_eq_false_of_wire_of_truncated rfl hr)⟩
  | f9 p => exact ⟨0, 0, .inr (wellFormed_eq_false_of_wire_of_truncated rfl hr)⟩
  | enc v => cases hr
  | dec data avail => exact ⟨data, avail, .inl rfl⟩
  | size v => cases hr

/-! ## The status and the count of the decoder unit -/

theorem decoderUnit_status_cases (data : Window) (avail : Count) :
    (decoderUnit data avail).decStatus = 0 ∨ (decoderUnit data avail).decStatus = 1 := by
  rcases decoderUnit_cases data avail with ⟨_, _, h⟩ | ⟨_, h⟩ <;> simp [h]

theorem ofNat_announced_toNat (data : Window) : (BitVec.ofNat 4 (announced data)).toNat = announced data := by
  rw [BitVec.toNat_ofNat, Nat.mod_eq_of_lt ((announced_le data).trans_lt (by decide))]

/-- `dec_consumed` is the announced length on OK and 0 on an error (R62, R66). -/
theorem decoderUnit_consumed (data : Window) (avail : Count) :
    ((decoderUnit data avail).decStatus = 0 → (decoderUnit data avail).decConsumed.toNat = announced data) ∧
    ((decoderUnit data avail).decStatus ≠ 0 → (decoderUnit data avail).decConsumed = 0) := by
  rcases decoderUnit_cases data avail with ⟨_, _, h⟩ | ⟨_, h⟩ <;> rw [h]
  · exact ⟨fun _ => ofNat_announced_toNat data, fun hne => absurd rfl hne⟩
  · exact ⟨nofun, fun _ => rfl⟩

/-! ## Several instances -/

section
variable {n : Nat}

/-- An instance answers the response of the operation, whatever it did before (R95). -/
theorem fleet_use_answers (f : Fleet n) (k : Fin n) (i : Instr) :
    ∃ g, f.use k i = .next (g, some (responseOf i)) := by
  obtain ⟨t, ht, hr⟩ := exec_lastResponse i (release f[k])
  exact ⟨f.set k t, by rw [Fleet.use, ht, ← hr]⟩

theorem fleet_run_cons {f g h : Fleet n} {k : Fin n} {i : Instr} {r : Option Response} {jobs : List (Fin n × Instr)}
    {rs : List (Option Response)} (huse : f.use k i = .next (g, r)) (hrun : g.run jobs = .next (h, rs)) :
    f.run ((k, i) :: jobs) = .next (h, r :: rs) := by
  simp only [Fleet.run, huse, hrun]

theorem fleet_run_answers (f : Fleet n) (jobs : List (Fin n × Instr)) :
    ∃ g, f.run jobs = .next (g, jobs.map fun j => some (responseOf j.2)) := by
  induction jobs generalizing f with
  | nil => exact ⟨f, rfl⟩
  | cons job jobs ih =>
    obtain ⟨g, huse⟩ := fleet_use_answers f job.1 job.2
    obtain ⟨h, hrun⟩ := ih g
    exact ⟨h, fleet_run_cons huse hrun⟩

end

/-! ## The statements -/

/-- Settles O4: every instruction answers its response in every state, so no transaction stops. -/
theorem everyOperationAndStepCompletes : Obligations.EveryOperationAndStepCompletes := by
  refine ⟨fun i s => ?_, step_completes⟩
  obtain ⟨t, ht, hobs, -⟩ := exec_answers i s
  exact ⟨t, responseOf i, ht, hobs⟩

/-- Settles O11: what the host reads is the transaction level's response, of which the only error is DEC's
TruncatedInput. -/
theorem onlyTruncatedInputIsEverRaised : Obligations.OnlyTruncatedInputIsEverRaised := by
  refine ⟨fun i s => ?_, encoderUnit_status, decoderUnit_status_cases⟩
  obtain ⟨t, ht, hr⟩ := exec_lastResponse i s
  refine ⟨t, ht, ?_, ?_, fun h => ?_⟩
  · simpa [hr] using responseOf_ne_failed_invalidRange i
  · simpa [hr] using responseOf_ne_reservedStatus i
  · exact eq_dec_or_not_wellFormed_of_truncated (Option.some.inj (hr.symm.trans h))

/-- Settles O49, by induction on the list of jobs: a use answers the response of its instruction in every state. -/
theorem instancesDoNotMatter : Obligations.InstancesDoNotMatter := fun _ => fleet_run_answers

/-- Settles O50: the second use drives the ports of its own operands, whatever the first one left. -/
theorem countDoesNotAccumulate : Obligations.CountDoesNotAccumulate :=
  fun d d' a a' s => ⟨_, _, decoderUnit d' a', exec_dec s d a, exec_dec _ d' a', rfl, decoderUnit_consumed d' a'⟩

end Sys2Proof.Machine
end

section
/-! PROOF. The statements of 70_reset_and_hazards.md: the observation of a run, the cursor of the host's stream, the
instruction that a step runs, and an understated count of available bytes. -/

namespace Sys2Proof.Machine

/-! ## The observation of a run -/

/-- A step on a presented request reads the response of each of its instructions in order (R107). -/
theorem step_present_answers (s : State) (tx : Transaction) :
    ∃ t, step (s.present tx) = .next t ∧ t.observed = (decode tx).map fun i => (i, responseOf i) := by
  obtain ⟨t, ht, hobs, -⟩ := execAll_answers (decode tx) (release s)
  exact ⟨t, (step_present s tx).trans ht, hobs⟩

/-- A run of any requests ends, and reads what each request reads in turn (R107). -/
theorem runFrom_answers (txs : List Transaction) (s : State) :
    ∃ t, runFrom txs s = .next (t, txs.flatMap fun tx => (decode tx).map fun i => (i, responseOf i)) := by
  induction txs generalizing s with
  | nil => exact ⟨s, rfl⟩
  | cons tx txs ih =>
    obtain ⟨t, hstep, hobs⟩ := step_present_answers s tx
    obtain ⟨u, hrun⟩ := ih t
    exact ⟨u, by rw [runFrom_cons hstep hrun, hobs, List.flatMap_cons]⟩

theorem wellFormed_operation_instr (filler : Window) (o : Operation) : (o.instr filler).wellFormed = true := by
  cases o <;> rfl

/-- An operation that a truthful host issues answers one of the three functions of its operand (R83, R104). -/
theorem responseOf_operation_instr (filler : Window) (o : Operation) :
    responseOf (o.instr filler) = o.response := by
  cases o with
  | enc v => rfl
  | size v => rfl
  | dec s => exact responseOf_dec_bind s filler

theorem decode_operation_transaction (filler : Window) (o : Operation) :
    decode (o.transaction filler) = [o.instr filler] :=
  decode_encode (wellFormed_operation_instr filler o)

/-! ## The statements -/

/-- Settles O46: each request of the run is one instruction, whose response is that of its operation. -/
theorem runIsTheMapOfTheOperations : Obligations.RunIsTheMapOfTheOperations := by
  intro filler ops s
  obtain ⟨t, ht⟩ := runFrom_answers (ops.map (Operation.transaction filler)) s
  refine ⟨t, ?_⟩
  rw [ht, List.flatMap_map, List.map_eq_flatMap]
  simp only [decode_operation_transaction, List.map_cons, List.map_nil, responseOf_operation_instr]

/-- Settles O47: the response of a read is DEC of the rest of the stream, and the cursor follows the response. -/
theorem cursorRule : Obligations.CursorRule := by
  intro c filler s
  obtain ⟨t, hturn, hr⟩ := turn_answers filler c s
  refine ⟨_, t, hturn, ?_, fun v n h => ?_, fun k h => ?_⟩
  · cases decodeSeq c.rest <;> rfl
  · rw [hr, h]
    exact ⟨rfl, rfl⟩
  · rw [hr, h]
    exact ⟨rfl, rfl⟩

/-- Settles O6: a request to one unit is one instruction, and the encoder unit's always answers, so that the decoder
unit's follows it. -/
theorem stepRunsTheDecodedInstruction : Obligations.StepRunsTheDecodedInstruction := by
  intro s
  refine ⟨step_of_none, fun _ => step_of_encoder, fun _ => step_of_decoder, fun e d h => ?_⟩
  obtain ⟨t, ht, -, -⟩ := exec_answers (decodeEncUse e) (release s)
  exact ⟨t, ht, step_of_both h ht⟩

/-- Settles O28: what is enough for the announced length is enough with more lanes available, and the rest of the
response does not depend on the count. -/
theorem understatedAvailIsPessimistic : Obligations.UnderstatedAvailIsPessimistic := by
  intro d a a' hle
  rcases decoderUnit_cases d a with ⟨-, hn, hd⟩ | ⟨-, hd⟩
  · right
    rw [hd, decoderUnit_of_announced_le (hn.trans hle)]
  · left
    rw [hd]

end Sys2Proof.Machine
end
